-- ==== Sys2Proof/Word.lean ====
section
/-!
DEFINITION. The word types of the machine (00_scope.md rules R5, R6; 10_state.md rules R24, R27, R28).
Everything is unsigned (R6).
-/
namespace Sys2Proof

/-- A 4-bit opcode field (R8, R10). -/
abbrev Nibble := BitVec 4

/-- An 8-bit value: a general register, a timer, a memory byte (`XLEN` of R5). -/
abbrev Byte := BitVec 8

/-- A 12-bit Address: pc, a stack slot, an immediate `nnn` (`ADDR_BITS` of R5). -/
abbrev Addr := BitVec 12

/-- A 16-bit value: an opcode word (R70) or the register I (`ILEN` of R5). -/
abbrev Word := BitVec 16

/-- The index of a general register, V0 .. VF (R24): every nibble names one. -/
abbrev Reg := Fin 16

/-- VF, register 15, which is also the flag (R25). -/
abbrev vf : Reg := 15

end Sys2Proof
end

