-- ==== Sys2Proof/Config.lean ====
section
/-!
DEFINITION. What is fixed before reset: the constants and parameters of 00_scope.md rule R5, and the values the spec
leaves free. An `opaque` constant has no body: nothing proved about the model can rest on its value. The document's
values of the parameters are in Machine/Parameters.lean.
-/
namespace Sys2Proof.Config

/-- `FONT_BYTES` of R5: the font occupies addresses 0 .. 79 (R32). -/
abbrev fontBytes : Nat := 80

/-- `GLYPH_BYTES` of R5: glyph d starts at 5 * d (R32, R153). -/
def glyphBytes : Nat := 5

/-- `PROG_BASE` of R5: where the program is loaded and where pc starts (R27, R51). -/
def progBase : Nat := 0x200

/-- `STACK_CAP` of R5: the greatest stack pointer (R29, 90_conflicts.md C2; log entry 17). -/
def stackCap : Nat := 15

/-- The parameters of R5 that have a value in the spec and that a model takes as an argument (93_implementation_defined.md
U12, U13, U14). The state carries them to every operation, and nothing ever changes them (log entries 3, 4, 5). -/
structure Params where
  /-- `MEM_SIZE`, any natural number (92_eei_decisions.md): the bytes are `mem[0]` to `mem[memSize - 1]` (R50). Below
  PROG_BASE see log entry 21. -/
  memSize : Nat
  /-- `W`: framebuffer columns. -/
  width : Nat
  /-- `H`: framebuffer rows. -/
  height : Nat
  /-- `FONT`: the font's bytes, glyph 0 first (R32). -/
  font : Vector Byte fontBytes
deriving DecidableEq, Repr, Inhabited

/-- The two values of `DRAW_X_OVERFLOW` (R5, R161). -/
inductive XOverflow where
  /-- A pixel past the right edge goes to the left end of the same row. -/
  | wrap
  /-- A pixel past the right edge is dropped. -/
  | clip
deriving DecidableEq, Repr, Inhabited

/-- `DRAW_X_OVERFLOW`, which the spec fixes to neither value (R161, 93_implementation_defined.md U5). Safe: a claim
holds for both; log entry 2. -/
opaque drawXOverflow : XOverflow

/-- The free random bytes (10_state.md rule R37, U6): the k-th one taken. Safe: under no law; log entry 1. -/
opaque rnd : Nat → Byte

/-- The unspecified state after a rejected load (R231, U8): of a draw, a numbered piece, a place in it. Safe; log
entry 11. -/
opaque unspecified : Nat → Nat → Nat → Nat

end Sys2Proof.Config
end

