-- ==== Sys2Proof/Machine/Parameters.lean ====
section
/-!
DEFINITION. The document's values of the parameters (00_scope.md rule R5), which parameters are legal, and what is
computed from them.
-/
namespace Sys2Proof.Machine

/-- The value of the parameter FONT: the 80 bytes of R32's table, glyph 0 first. UNVERIFIED: from general knowledge, as
the spec says itself (G2, D10); log entry 5. -/
def fontTable : Vector Byte Config.fontBytes := (#v[
  0xF0, 0x90, 0x90, 0x90, 0xF0,  0x20, 0x60, 0x20, 0x20, 0x70,
  0xF0, 0x10, 0xF0, 0x80, 0xF0,  0xF0, 0x10, 0xF0, 0x10, 0xF0,
  0x90, 0x90, 0xF0, 0x10, 0x10,  0xF0, 0x80, 0xF0, 0x10, 0xF0,
  0xF0, 0x80, 0xF0, 0x90, 0xF0,  0xF0, 0x10, 0x20, 0x40, 0x40] : Vector Byte 40) ++ (#v[
  0xF0, 0x90, 0xF0, 0x90, 0xF0,  0xF0, 0x90, 0xF0, 0x10, 0xF0,
  0xF0, 0x90, 0xF0, 0x90, 0x90,  0xE0, 0x90, 0xE0, 0x90, 0xE0,
  0xF0, 0x80, 0x80, 0x80, 0xF0,  0xE0, 0x90, 0x90, 0x90, 0xE0,
  0xF0, 0x80, 0xF0, 0x80, 0xF0,  0xF0, 0x80, 0xF0, 0x80, 0x80] : Vector Byte 40)

/-- The hardware of the document: MEM_SIZE = 0xFFF, W = 64, H = 32, FONT (R5; D2, D29, D10). -/
def documentParams : Config.Params where
  memSize := 0xFFF
  width := 64
  height := 32
  font := fontTable

/-- R5: `W` and `H` are at least 8. -/
def validParams (p : Config.Params) : Bool := decide (8 ≤ p.width) && decide (8 ≤ p.height)

/-- `PROG_MAX` of R5: the longest program that loads, `MEM_SIZE - PROG_BASE` (R201). DESIGN CHOICE, unsafe: for a
MEM_SIZE below PROG_BASE, of which the spec says nothing (the difference is negative, R51's map does not fit), it is 0, so
that the empty program still loads and no longer one does; log entry 21. -/
def progMax (p : Config.Params) : Nat := p.memSize - Config.progBase

/-- What a byte holds after reset where no program was loaded (R51): the font below 80, 0x00 above (the spec's D9; log
entries 6, 20). -/
def resetByte (p : Config.Params) (a : Nat) : Byte := p.font.toList.getD a 0

end Sys2Proof.Machine
end

