-- ==== Sys2Proof/Syntax.lean ====
section
/-!
DEFINITION. The 35 instructions of 30_encoding.md rule R75, one constructor per row of spec/opcode_table.json, in
the table's order. Operands are R72's fields: `x`, `y` registers, `kk` an unsigned byte, `nnn` an unsigned 12-bit
address, `n` a count 0 .. 15 (R74).
-/
namespace Sys2Proof

inductive Instr where
  /-- 00E0, clear screen (R111). -/
  | cls
  /-- 00EE, return (R112). -/
  | ret
  /-- 0nnn, system call: a no-op (R110). -/
  | sys (nnn : Addr)
  /-- 1nnn, jump (R113). -/
  | jp (nnn : Addr)
  /-- 2nnn, call (R114). -/
  | call (nnn : Addr)
  /-- 3xkk, skip if equal, byte form (R115). -/
  | seByte (x : Reg) (kk : Byte)
  /-- 4xkk, skip if not equal, byte form (R116). -/
  | sneByte (x : Reg) (kk : Byte)
  /-- 5xy0, skip if equal, register form (R117). -/
  | seReg (x y : Reg)
  /-- 6xkk, load immediate (R132). -/
  | ldByte (x : Reg) (kk : Byte)
  /-- 7xkk, AddValue (R133). -/
  | addByte (x : Reg) (kk : Byte)
  /-- 8xy0, register copy (R134). -/
  | ldReg (x y : Reg)
  /-- 8xy1 (R135). -/
  | orReg (x y : Reg)
  /-- 8xy2 (R136). -/
  | andReg (x y : Reg)
  /-- 8xy3 (R137). -/
  | xorReg (x y : Reg)
  /-- 8xy4, AddRegister (R138). -/
  | addReg (x y : Reg)
  /-- 8xy5, Subtract (R139). -/
  | subReg (x y : Reg)
  /-- 8xy6, ShiftRight; y is carried and ignored (R140). -/
  | shr (x y : Reg)
  /-- 8xy7, SubtractNegate (R141). -/
  | subnReg (x y : Reg)
  /-- 8xyE, ShiftLeft; y is carried and ignored (R142). -/
  | shl (x y : Reg)
  /-- 9xy0, skip if not equal, register form (R118). -/
  | sneReg (x y : Reg)
  /-- Annn, load index (R150). -/
  | ldI (nnn : Addr)
  /-- Bnnn, jump with offset V0 (R119). -/
  | jpV0 (nnn : Addr)
  /-- Cxkk, Random (R151). -/
  | rnd (x : Reg) (kk : Byte)
  /-- Dxyn, Draw (R163). -/
  | drw (x y : Reg) (n : Fin 16)
  /-- Ex9E, SkipIfKeyDown (R170). -/
  | skp (x : Reg)
  /-- ExA1, SkipIfKeyUp (R171). -/
  | sknp (x : Reg)
  /-- Fx07, read the delay timer (R180). -/
  | ldVxDt (x : Reg)
  /-- Fx0A, LoadFromKey (R172). -/
  | ldVxK (x : Reg)
  /-- Fx15, set the delay timer (R181). -/
  | ldDtVx (x : Reg)
  /-- Fx18, set the sound timer (R182). -/
  | ldStVx (x : Reg)
  /-- Fx1E, AddI (R152). -/
  | addI (x : Reg)
  /-- Fx29, LoadSpriteLocation (R153). -/
  | ldF (x : Reg)
  /-- Fx33, LoadBcd (R183). -/
  | ldB (x : Reg)
  /-- Fx55, StoreRegisterRangeAtI (R184). -/
  | ldMemVx (x : Reg)
  /-- Fx65, LoadRegisterRangeFromI (R185). -/
  | ldVxMem (x : Reg)
deriving DecidableEq, Repr

end Sys2Proof
end

