-- ==== Sys2Proof/Machine/State.lean ====
section
/-!
DEFINITION. The architectural state (10_state.md rule R23: twelve items and nothing else), the fault records
(60_exceptions.md rule R200) and the state after reset (R40). Three fields are the model's own: one carries the
parameters of R5, which are configuration and no state of the block (R38), two the free byte of the step's input `rnd`
(R37).
-/
namespace Sys2Proof.Machine

/-- A fault record (R200): a kind and one number. A record is LATCHED in `State.fault` and the step that raises it
answers a next state (R208), so no step of this model answers `Host.Outcome.fault`; log entry 8. Every constructor
is safe: after it nothing executes (R107). -/
inductive Fault where
  /-- Code 1. Raised by any step that fetches an illegal word (R81, R202); carries the raw word. Safe. -/
  | decodeFailure (opcode : Word)
  /-- Code 2. Raised by CALL when `sp = 15` (R203); carries the pc of the CALL. Safe. -/
  | stackOverflow (address : Addr)
  /-- Code 3. Raised by RET when `sp = 0` (R204); carries the pc of the RET. Safe. -/
  | stackUnderflow (address : Addr)
  /-- Code 4. Raised by DRW, LD B, LD [I],Vx and LD Vx,[I] when the range leaves memory (R205); carries the pc. Safe. -/
  | memoryOverrun (address : Addr)
  /-- Code 5. Raised by any step whose two bytes are not both in memory (R206, the spec's D3; log entry 9); carries
  the pc. Safe. -/
  | fetchOverrun (address : Addr)
  /-- Code 6. Raised by the host event reset_load when the program is too long (R201); carries its length. Safe. -/
  | programTooLong (size : Nat)
deriving DecidableEq, Repr, Inhabited

/-- Reasons to refuse an instruction. -/
inductive Refusal where
  /-- An instruction that has no meaning yet, named by its mnemonic: no arm of `exec` is left in this case. Safe. -/
  | notModelled (mnemonic : String)
deriving DecidableEq, Repr

/-- A framebuffer: `H` rows of `W` pixels, row 0 first, column 0 first, `true` for On (R33, R221; Machine/Frame.lean:
`Frame.pixel`, `Frame.wf`). -/
abbrev Frame := List (List Bool)

/-- Memory as the list of the bytes that differ from their reset value, addresses strictly rising
(Machine/Memory.lean: `Memory.read`, `Memory.wf`). -/
abbrev Memory := List Host.Cell

/-- The whole state (R23). -/
structure State where
  /-- The model's own: the parameters of R5 (log entries 3, 4, 5). No step and no event changes them. -/
  params : Config.Params
  /-- V0 .. VF (R24). -/
  v : Vector Byte 16
  /-- I (R28). -/
  i : Word
  /-- The program counter (R27). -/
  pc : Addr
  /-- The stack pointer, 0 .. 15: how many return addresses are held (R29). -/
  sp : Fin 16
  /-- The sixteen stack slots (R29). -/
  stack : Vector Addr 16
  /-- DT, the delay timer (R30). -/
  dt : Byte
  /-- ST, the sound timer (R30). -/
  st : Byte
  /-- The byte memory (R31). -/
  mem : Memory
  /-- The framebuffer (R33). -/
  fb : Frame
  /-- The framebuffer's dirty bit (R34). -/
  dirty : Bool
  /-- The key latches, `true` for Pressed (R35). -/
  key : Vector Bool 16
  /-- The fault latch (R36). -/
  fault : Option Fault
  /-- The model's own: the byte the host gave as this step's input `rnd` (R37), if it gave one (log entry 1). -/
  rndIn : Option Byte
  /-- The model's own: how many free values have been taken (log entry 1). -/
  draws : Nat
deriving DecidableEq, Repr, Inhabited

/-- The state after `reset_load` of the empty program (R40, R230), of a core with the parameters `p`: memory lists
nothing, since every byte has its reset value. DESIGN CHOICE: `rndIn` and `draws` are the model's own (log entry 1);
the zeros are the spec's D9, the Released keys its D24, the cleared latch its D5 and D33 (log entries 6, 7). -/
def State.resetOf (p : Config.Params) : State where
  params := p
  v := Vector.replicate 16 0
  i := 0
  pc := BitVec.ofNat 12 Config.progBase
  sp := 0
  stack := Vector.replicate 16 0
  dt := 0
  st := 0
  mem := []
  fb := List.replicate p.height (List.replicate p.width false)
  dirty := true
  key := Vector.replicate 16 false
  fault := none
  rndIn := none
  draws := 0

/-- The state after reset of the document's hardware. -/
def State.reset : State := State.resetOf documentParams

/-- What an instruction or a step answers. -/
abbrev Result := Host.Outcome State Fault Refusal

end Sys2Proof.Machine
end

