-- ==== Sys2Proof/Machine/Flags.lean ====
section
/-!
DEFINITION. The flag computations: VF is the only flag and holds exactly 0x00 or 0x01 after each of them
(10_state.md rule R25; 42_alu.md rules R130, R138 to R142; 44_draw.md rule R162).
-/
namespace Sys2Proof.Machine

/-- A flag as the byte written into VF (R25). -/
def flagByte (f : Bool) : Byte := if f then 0x01 else 0x00

/-- Carry out of an 8-bit addition: the true sum exceeds 255 (R130, R138). -/
def carryOut (a b : Byte) : Bool := decide (a.toNat + b.toNat > 255)

/-- No borrow of `a - b`: the minuend is at least the subtrahend (R130, R139, R141). -/
def noBorrow (a b : Byte) : Bool := decide (a.toNat ≥ b.toNat)

/-- The bit a right shift by one moves out: bit 0 (R140). -/
def shiftedOutRight (a : Byte) : Bool := a.getLsbD 0

/-- The bit a left shift by one moves out: bit 7 (R142). -/
def shiftedOutLeft (a : Byte) : Bool := a.getLsbD 7

/-- The two levels of the document's flag-read accessor (R26). -/
inductive FlagLevel where
  | low
  | high
deriving DecidableEq, Repr

/-- R26: Low or High only where VF holds exactly 0 or 1. It is no part of the hardware (D36): no instruction and no
host event uses it. -/
def flagLevel (s : State) : Option FlagLevel :=
  if s.v[vf] = 0x00 then some .low else if s.v[vf] = 0x01 then some .high else none

end Sys2Proof.Machine
end

