-- ==== Sys2Proof/Machine/Frame.lean ====
section
/-!
DEFINITION. The framebuffer as a row-major grid of pixels (10_state.md rule R33; 44_draw.md rule R162;
60_exceptions.md rule R221).
-/
namespace Sys2Proof.Machine

/-- The pixel of a row and a column. Every use is inside the grid (R161), so the value outside it is never used. -/
def Frame.pixel (f : Frame) (row col : Nat) : Bool := (f.getD row []).getD col false

/-- One pixel changed to its opposite (R162). -/
def Frame.flip (f : Frame) (row col : Nat) : Frame := f.modify row fun line => line.modify col fun b => !b

/-- The frame with every pixel Off (R111). -/
def Frame.off (p : Config.Params) : Frame := List.replicate p.height (List.replicate p.width false)

/-- The shape of R221: `H` rows of `W` pixels. -/
def Frame.wf (p : Config.Params) (f : Frame) : Bool := f.length == p.height && f.all fun line => line.length == p.width

end Sys2Proof.Machine
end

