-- ==== Sys2Proof/Machine/Memory.lean ====
section
/-!
DEFINITION. The byte memory (10_state.md rules R31, R32; 20_memory.md rules R50 to R58). One canonical form: the
listed addresses rise strictly, each is below `MEM_SIZE`, and no listed byte equals the byte an unlisted address
reads as (`resetByte`).
-/
namespace Sys2Proof.Machine

/-- The byte at an address. Every access of an instruction is range-checked first (R9, R56), so the value outside
memory is never used. -/
def Memory.read (p : Config.Params) (m : Memory) (a : Nat) : Byte :=
  match m with
  | [] => resetByte p a
  | (k, b) :: rest => if a = k then b else Memory.read p rest a

/-- Put a byte at an address of a rising list, listing it only where it differs from its reset byte. -/
def Memory.put (p : Config.Params) (m : Memory) (a : Nat) (b : Byte) : Memory :=
  match m with
  | [] => if b = resetByte p a then [] else [(a, b)]
  | (k, c) :: rest =>
    if a < k then (if b = resetByte p a then (k, c) :: rest else (a, b) :: (k, c) :: rest)
    else if a = k then (if b = resetByte p a then rest else (a, b) :: rest)
    else (k, c) :: Memory.put p rest a b

/-- Store one byte. An address from `MEM_SIZE` up names no byte (R50), so nothing is stored there. -/
def Memory.write (p : Config.Params) (m : Memory) (a : Nat) (b : Byte) : Memory :=
  if a < p.memSize then m.put p a b else m

/-- `MemRead(a, n)` of R9: n bytes, first byte first. -/
def Memory.readBytes (p : Config.Params) (m : Memory) (a : Nat) : Nat → List Byte
  | 0 => []
  | n + 1 => m.read p a :: Memory.readBytes p m (a + 1) n

/-- `MemWrite(a, n, bytes)` of R9: the bytes to rising addresses. -/
def Memory.writeBytes (p : Config.Params) (m : Memory) (a : Nat) : List Byte → Memory
  | [] => m
  | b :: bs => Memory.writeBytes p (m.write p a b) (a + 1) bs

/-- Memory after a successful `reset_load` (R230, R51): the reset contents with the program from `PROG_BASE`. -/
def Memory.load (p : Config.Params) (program : List Byte) : Memory := Memory.writeBytes p [] Config.progBase program

/-- The canonical form from address `lo` on. -/
def Memory.wfFrom (p : Config.Params) (lo : Nat) : Memory → Bool
  | [] => true
  | (k, b) :: rest =>
    decide (lo ≤ k) && decide (k < p.memSize) && b != resetByte p k && Memory.wfFrom p (k + 1) rest

/-- The canonical form: equal memories are equal lists. -/
def Memory.wf (p : Config.Params) (m : Memory) : Bool := Memory.wfFrom p 0 m

end Sys2Proof.Machine
end

