-- ==== Sys2Proof/Machine/Ops.lean ====
section
/-!
DEFINITION. The named operations over the state that the meanings are made of: reading and writing each register
(10_state.md), the four updates of pc (40_step_fsm.md rule R104), the stack, and raising a fault
(60_exceptions.md rule R208). There is no return from a fault (R209).
-/
namespace Sys2Proof.Machine

/-! ### Registers -/

/-- `V[x]` (R8, R24). -/
def State.reg (s : State) (x : Reg) : Byte := s.v[x]

/-- `V[x] <- b` (R8, R24). -/
def State.setReg (s : State) (x : Reg) (b : Byte) : State := { s with v := s.v.set x b }

/-- `V[i] <- bytes[i]` for the registers V0 .. Vx (R185), the others kept. -/
def State.setRegs (s : State) (x : Reg) (bytes : List Byte) : State :=
  { s with v := Vector.ofFn fun i : Reg => if i ≤ x then bytes.getD i 0 else s.v[i] }

/-- The dedicated flag-set operation: 0 or 1 into VF (R25). -/
def State.setFlag (s : State) (f : Bool) : State := s.setReg vf (flagByte f)

/-- `I <- w` (R28). -/
def State.setI (s : State) (w : Word) : State := { s with i := w }

/-- `DT <- b` (R30). -/
def State.setDt (s : State) (b : Byte) : State := { s with dt := b }

/-- `ST <- b` (R30). -/
def State.setSt (s : State) (b : Byte) : State := { s with st := b }

/-- Memory replaced (by a memory operation on it). -/
def State.setMem (s : State) (m : Memory) : State := { s with mem := m }

/-- `mem[a]` (R9, R50). -/
def State.byte (s : State) (a : Nat) : Byte := s.mem.read s.params a

/-- `MemRead(a, n)` (R9). -/
def State.bytes (s : State) (a n : Nat) : List Byte := s.mem.readBytes s.params a n

/-- `MemWrite(a, n, bytes)` (R9). -/
def State.store (s : State) (a : Nat) (bytes : List Byte) : State := s.setMem (s.mem.writeBytes s.params a bytes)

/-- A mutation of the framebuffer, which sets `dirty` (R34). -/
def State.setFb (s : State) (f : Frame) : State := { s with fb := f, dirty := true }

/-! ### The program counter (R27, R104) -/

/-- `pc <- t`. -/
def State.setPc (s : State) (t : Addr) : State := { s with pc := t }

/-- `advance`: `pc <- (pc + 2) mod 4096`. -/
def State.advance (s : State) : State := s.setPc (s.pc + 2)

/-- `skip`: `pc <- (pc + 4) mod 4096`. -/
def State.skip (s : State) : State := s.setPc (s.pc + 4)

/-- The update of a conditional skip: `skip` if the condition holds, else `advance`. -/
def State.skipIf (s : State) (c : Bool) : State := if c then s.skip else s.advance

/-! ### The stack (R29) -/

/-- A call's push: `stack[sp] <- ret; sp <- sp + 1`. Used below the cap only. -/
def State.push (s : State) (ret : Addr) : State :=
  { s with stack := s.stack.set s.sp ret, sp := s.sp + 1 }

/-- A return's pop: `sp <- sp - 1; pc <- stack[sp]`. Used above 0 only; the slot keeps its value. -/
def State.pop (s : State) : State :=
  { s with sp := s.sp - 1, pc := s.stack[s.sp - 1] }

/-! ### Faults -/

/-- Fault entry (R208): the record is latched and every other piece of state, pc included, keeps its value. -/
def State.raise (s : State) (r : Fault) : State := { s with fault := some r }

/-- An instruction that raises: the next state is the fault entry from the state at the start of the step (R9). -/
def raise (s : State) (r : Fault) : Result := .next (s.raise r)

/-- What a step returns to the host (R108): `none` for Ok, else the fault record, which is the latch's value after the
step. -/
def stepReply (after : State) : Option Fault := after.fault

/-- The numeric code of a latch value (R200). -/
def faultCode : Option Fault → Nat
  | none => 0
  | some (.decodeFailure _) => 1
  | some (.stackOverflow _) => 2
  | some (.stackUnderflow _) => 3
  | some (.memoryOverrun _) => 4
  | some (.fetchOverrun _) => 5
  | some (.programTooLong _) => 6

/-- The number a latch value carries (R200). -/
def faultInfo : Option Fault → Nat
  | none => 0
  | some (.decodeFailure op) => op.toNat
  | some (.stackOverflow a) => a.toNat
  | some (.stackUnderflow a) => a.toNat
  | some (.memoryOverrun a) => a.toNat
  | some (.fetchOverrun a) => a.toNat
  | some (.programTooLong n) => n

/-! ### The free byte of a step (R37) -/

/-- The step's input `rnd`: the byte the host gave, else a free value under no law (R37, U6; log entry 1). -/
def State.rnd (s : State) : Byte :=
  match s.rndIn with
  | some b => b
  | none => Config.rnd s.draws

/-- The input has been used: the next one is another. -/
def State.takeRnd (s : State) : State := { s with rndIn := none, draws := s.draws + 1 }

end Sys2Proof.Machine
end

