-- ==== Sys2Proof/Machine/Operands.lean ====
section
/-!
DEFINITION. The operand forms (30_encoding.md rule R74; 20_memory.md rules R55, R56, R59).
-/
namespace Sys2Proof.Machine

/-- The low nibble of a register, which selects a key or a glyph (R153, R170). -/
def lowNibble (b : Byte) : Fin 16 := (b.extractLsb' 0 4).toFin

/-- The data address `I[11:0]`; I itself is not changed (R28, R59). -/
def State.dataAddr (s : State) : Nat := (s.i.extractLsb' 0 12).toNat

/-- The range check of R56: the n bytes from `I[11:0]` are all bytes of memory, or the instruction raises
MemoryOverrun with its own pc before it reads or writes anything. `k` is the rest of the instruction, given the start
address. DESIGN CHOICE, safe: for `n = 0` and a start above MEM_SIZE, which the document's size excludes, the comparison of
R56 and R163 raises and their words, with R212, say that n = 0 never faults; the comparison is followed; log entry 22. -/
def withRange (s : State) (n : Nat) (k : Nat → Result) : Result :=
  if s.dataAddr + n > s.params.memSize then raise s (.memoryOverrun s.pc) else k s.dataAddr

/-- The values of V0 .. Vx, V0 first (R184). -/
def State.regsUpTo (s : State) (x : Reg) : List Byte := s.v.toList.take (x.val + 1)

/-- The least pressed key, if any (R172). -/
def State.leastKey (s : State) : Option (Fin 16) := (List.finRange 16).find? fun k => s.key[k]

/-- An 8-bit value as its three decimal digits, hundreds first (R183). -/
def bcdDigits (b : Byte) : List Byte :=
  [BitVec.ofNat 8 (b.toNat / 100), BitVec.ofNat 8 (b.toNat / 10 % 10), BitVec.ofNat 8 (b.toNat % 10)]

end Sys2Proof.Machine
end

