-- ==== Sys2Proof/Machine/Alu.lean ====
section
/-!
DEFINITION. Register load, arithmetic, logic and shift instructions (42_alu.md). Operands are read first, the result
is written next and the flag last (R131, D12); the loads, ADD Vx,kk and the logic operations write no flag (D13).
-/
namespace Sys2Proof.Machine

/-- Write a result to Vx and advance: the shape of the instructions that write no flag. -/
def State.result (s : State) (x : Reg) (r : Byte) : State := (s.setReg x r).advance

/-- Write a result to Vx, then the flag to VF, and advance (R131). -/
def State.resultFlag (s : State) (x : Reg) (r : Byte) (f : Bool) : State := ((s.setReg x r).setFlag f).advance

/-- R132. -/
def execLdByte (x : Reg) (kk : Byte) (s : State) : Result := .next (s.result x kk)

/-- R133: wraps modulo 256, VF untouched. -/
def execAddByte (x : Reg) (kk : Byte) (s : State) : Result := .next (s.result x (s.reg x + kk))

/-- R134. -/
def execLdReg (x y : Reg) (s : State) : Result := .next (s.result x (s.reg y))

/-- R135. -/
def execOrReg (x y : Reg) (s : State) : Result := .next (s.result x (s.reg x ||| s.reg y))

/-- R136. -/
def execAndReg (x y : Reg) (s : State) : Result := .next (s.result x (s.reg x &&& s.reg y))

/-- R137. -/
def execXorReg (x y : Reg) (s : State) : Result := .next (s.result x (s.reg x ^^^ s.reg y))

/-- R138: VF is the carry. -/
def execAddReg (x y : Reg) (s : State) : Result :=
  .next (s.resultFlag x (s.reg x + s.reg y) (carryOut (s.reg x) (s.reg y)))

/-- R139: `Vx - Vy`, VF is 1 for no borrow. -/
def execSubReg (x y : Reg) (s : State) : Result :=
  .next (s.resultFlag x (s.reg x - s.reg y) (noBorrow (s.reg x) (s.reg y)))

/-- R140: Vx in place, y ignored (D14); VF is the old bit 0. -/
def execShr (x _y : Reg) (s : State) : Result :=
  .next (s.resultFlag x (s.reg x >>> 1) (shiftedOutRight (s.reg x)))

/-- R141: `Vy - Vx`, VF is 1 for no borrow. -/
def execSubnReg (x y : Reg) (s : State) : Result :=
  .next (s.resultFlag x (s.reg y - s.reg x) (noBorrow (s.reg y) (s.reg x)))

/-- R142: Vx in place, y ignored (D14); VF is the old bit 7. -/
def execShl (x _y : Reg) (s : State) : Result :=
  .next (s.resultFlag x (s.reg x <<< 1) (shiftedOutLeft (s.reg x)))

end Sys2Proof.Machine
end

