-- ==== Sys2Proof/Machine/Draw.lean ====
section
/-!
DEFINITION. Sprite drawing and DRW (44_draw.md rules R160 to R163).
-/
namespace Sys2Proof.Machine

/-- Sprite column k of a byte, 0 leftmost: bit `7 - k` (R160, D19). -/
def spriteBit (b : Byte) (k : Nat) : Bool := b.getLsbD (7 - k)

/-- The framebuffer row of sprite row r, if it is not dropped at the bottom (R161, 90_conflicts.md C5). -/
def rowTarget (p : Config.Params) (y0 r : Nat) : Option Nat := if y0 + r < p.height then some (y0 + r) else none

/-- The framebuffer column of sprite column k, if it is not dropped at the right edge (R161, D20). -/
def columnTarget (p : Config.Params) (mode : Config.XOverflow) (x0 k : Nat) : Option Nat :=
  if x0 + k < p.width then some (x0 + k)
  else match mode with
    | .wrap => some (x0 + k - p.width)
    | .clip => none

/-- The columns one sprite byte flips, left to right: those of its 1 bits that are not dropped (R160, R161). -/
def rowColumns (p : Config.Params) (mode : Config.XOverflow) (x0 : Nat) (b : Byte) : List Nat :=
  (List.range 8).filterMap fun k => if spriteBit b k then columnTarget p mode x0 k else none

/-- The pixels (row, column) a sprite flips, from its sprite row r on, in the order of R163's two loops. -/
def spritePixels (p : Config.Params) (mode : Config.XOverflow) (x0 y0 : Nat) (r : Nat) : List Byte → List (Nat × Nat)
  | [] => []
  | b :: rest =>
    (match rowTarget p y0 r with
      | some row => (rowColumns p mode x0 b).map fun col => (row, col)
      | none => []) ++ spritePixels p mode x0 y0 (r + 1) rest

/-- A framebuffer being drawn on, with the collision mark (R162). -/
structure Canvas where
  fb : Frame
  collided : Bool
deriving DecidableEq, Repr

/-- Flip one pixel; flipping an On pixel marks the collision (R162). -/
def flipPixel (c : Canvas) (px : Nat × Nat) : Canvas where
  fb := c.fb.flip px.1 px.2
  collided := c.collided || c.fb.pixel px.1 px.2

/-- Draw a sprite at the coordinate values `xv`, `yv` (R161, R162): the start is reduced modulo the screen. -/
def drawSprite (p : Config.Params) (mode : Config.XOverflow) (f : Frame) (xv yv : Byte) (bytes : List Byte) : Canvas :=
  (spritePixels p mode (xv.toNat % p.width) (yv.toNat % p.height) 0 bytes).foldl flipPixel ⟨f, false⟩

/-- Store a finished drawing: the pixels, the collision in VF, dirty, advance (R163). -/
def State.drawn (s : State) (c : Canvas) : State := ((s.setFb c.fb).setFlag c.collided).advance

/-- R163: n sprite rows from `I[11:0]`; all n bytes are checked first (D16); the coordinates are read before VF is
written. -/
def execDrw (x y : Reg) (n : Fin 16) (s : State) : Result :=
  withRange s n.val fun a =>
    .next (s.drawn (drawSprite s.params Config.drawXOverflow s.fb (s.reg x) (s.reg y) (s.bytes a n.val)))

end Sys2Proof.Machine
end

