-- ==== Sys2Proof/Machine/Flow.lean ====
section
/-!
DEFINITION. System, jump, call, return and skip instructions (41_flow.md).
-/
namespace Sys2Proof.Machine

/-- R110: a no-op; the operand is never used (D32). -/
def execSys (_nnn : Addr) (s : State) : Result := .next s.advance

/-- R111: every pixel Off, dirty set (even where nothing changed, D21). -/
def execCls (s : State) : Result :=
  .next (s.setFb (Frame.off s.params)).advance

/-- R112: StackUnderflow where the stack is empty; else pop into pc, with no further +2 (D8). -/
def execRet (s : State) : Result :=
  if s.sp = 0 then raise s (.stackUnderflow s.pc) else .next s.pop

/-- R113. -/
def execJp (nnn : Addr) (s : State) : Result := .next (s.setPc nnn)

/-- R114: StackOverflow where `sp = 15`; else push the address of the next instruction and jump (D8). -/
def execCall (nnn : Addr) (s : State) : Result :=
  if s.sp.val ≥ Config.stackCap then raise s (.stackOverflow s.pc)
  else .next ((s.push (s.pc + 2)).setPc nnn)

/-- R115. -/
def execSeByte (x : Reg) (kk : Byte) (s : State) : Result := .next (s.skipIf (s.reg x == kk))

/-- R116. -/
def execSneByte (x : Reg) (kk : Byte) (s : State) : Result := .next (s.skipIf (s.reg x != kk))

/-- R117. -/
def execSeReg (x y : Reg) (s : State) : Result := .next (s.skipIf (s.reg x == s.reg y))

/-- R118. -/
def execSneReg (x y : Reg) (s : State) : Result := .next (s.skipIf (s.reg x != s.reg y))

/-- R119: always V0; the sum is reduced modulo 4096 (D28). -/
def execJpV0 (nnn : Addr) (s : State) : Result := .next (s.setPc (nnn + (s.reg 0).setWidth 12))

end Sys2Proof.Machine
end

