-- ==== Sys2Proof/Machine/IndexRandom.lean ====
section
/-!
DEFINITION. Index-register and random instructions (43_index_random.md).
-/
namespace Sys2Proof.Machine

/-- R150: zero-extended; the four high bits of I become 0. -/
def execLdI (nnn : Addr) (s : State) : Result := .next (s.setI (nnn.setWidth 16)).advance

/-- R151: the step's free byte, ANDed with the mask. -/
def execRnd (x : Reg) (kk : Byte) (s : State) : Result := .next ((s.setReg x (s.rnd &&& kk)).takeRnd).advance

/-- R152: 16-bit sum, not masked to 12 bits, VF untouched (D15). -/
def execAddI (x : Reg) (s : State) : Result := .next (s.setI (s.i + (s.reg x).setWidth 16)).advance

/-- R153: the address of the glyph that the low nibble names. -/
def execLdF (x : Reg) (s : State) : Result :=
  .next (s.setI (BitVec.ofNat 16 (Config.glyphBytes * (lowNibble (s.reg x)).val))).advance

end Sys2Proof.Machine
end

