-- ==== Sys2Proof/Machine/Keypad.lean ====
section
/-!
DEFINITION. Keypad instructions (45_keypad.md; the spec's decisions D22 and D23, log entry 16).
-/
namespace Sys2Proof.Machine

/-- R170: skip if the key of the low nibble is Pressed. -/
def execSkp (x : Reg) (s : State) : Result := .next (s.skipIf s.key[lowNibble (s.reg x)])

/-- R171: skip if the key of the low nibble is Released. -/
def execSknp (x : Reg) (s : State) : Result := .next (s.skipIf (!s.key[lowNibble (s.reg x)]))

/-- R172: the least pressed key into Vx; where none is pressed, hold: nothing changes. -/
def execLdVxK (x : Reg) (s : State) : Result :=
  match s.leastKey with
  | some k => .next (s.setReg x (BitVec.ofNat 8 k.val)).advance
  | none => .next s

end Sys2Proof.Machine
end

