-- ==== Sys2Proof/Machine/TimersMemory.lean ====
section
/-!
DEFINITION. Timer instructions, BCD and the register-range copies (46_timers_memory.md).
-/
namespace Sys2Proof.Machine

/-- R180. -/
def execLdVxDt (x : Reg) (s : State) : Result := .next (s.setReg x s.dt).advance

/-- R181. -/
def execLdDtVx (x : Reg) (s : State) : Result := .next (s.setDt (s.reg x)).advance

/-- R182. -/
def execLdStVx (x : Reg) (s : State) : Result := .next (s.setSt (s.reg x)).advance

/-- R183: three digits, hundreds at the lowest address (D18). -/
def execLdB (x : Reg) (s : State) : Result :=
  withRange s 3 fun a => .next (s.store a (bcdDigits (s.reg x))).advance

/-- R184: V0 .. Vx to memory; I unchanged (D17). -/
def execLdMemVx (x : Reg) (s : State) : Result :=
  withRange s (x.val + 1) fun a => .next (s.store a (s.regsUpTo x)).advance

/-- R185: V0 .. Vx from memory; I unchanged (D17). -/
def execLdVxMem (x : Reg) (s : State) : Result :=
  withRange s (x.val + 1) fun a => .next (s.setRegs x (s.bytes a (x.val + 1))).advance

end Sys2Proof.Machine
end

