-- ==== Sys2Proof/WellFormed.lean ====
section
/-!
DEFINITION. Which terms of `Instr` stand for an instruction word. Every operand has exactly its field's width by its
type, so one check is left: `SYS nnn` is every word of family 0 OTHER THAN 0x00E0 and 0x00EE, which are CLS and RET
(30_encoding.md rules R75, R76).
-/
namespace Sys2Proof

/-- Whether a term is the reading of some instruction word. -/
def Instr.wellFormed : Instr → Bool
  | .sys nnn => nnn != 0x0E0#12 && nnn != 0x0EE#12
  | _ => true

/-- `wellFormed` as a proposition. -/
abbrev Instr.WellFormed (i : Instr) : Prop := i.wellFormed = true

end Sys2Proof
end

