-- ==== Sys2Proof/Decode.lean ====
section
/-!
DEFINITION. The decoder of 30_encoding.md (rules R70 to R82), the opcode table of R75 as data, and the encoder,
written from the same patterns. Which bits each field takes is R10 and R72. UNVERIFIED: the patterns are
R75's, which the spec says are from general knowledge (G1, D11); log entry 15.
-/
namespace Sys2Proof

/-! ### Fields (R72) -/

/-- `op[15:12]`. -/
def fieldF (op : Word) : Nibble := op.extractLsb' 12 4
/-- `op[11:8]`, the index of Vx. -/
def fieldX (op : Word) : Reg := (op.extractLsb' 8 4).toFin
/-- `op[7:4]`, the index of Vy. -/
def fieldY (op : Word) : Reg := (op.extractLsb' 4 4).toFin
/-- `op[3:0]`, the trailing nibble. -/
def fieldN (op : Word) : Nibble := op.extractLsb' 0 4
/-- `op[7:0]`, the trailing byte. -/
def fieldKK (op : Word) : Byte := op.extractLsb' 0 8
/-- `op[11:0]`, the immediate address. -/
def fieldNNN (op : Word) : Addr := op.extractLsb' 0 12

/-- The opcode word of two bytes, the byte at the lower address in bits 15..8 (R53, R70). -/
def wordOfBytes (hi lo : Byte) : Word := hi ++ lo
/-- Bits 15..8 of an opcode word, the byte at the lower address (R53). -/
def hiByte (op : Word) : Byte := op.extractLsb' 8 8
/-- Bits 7..0 of an opcode word, the byte at the higher address (R53). -/
def loByte (op : Word) : Byte := op.extractLsb' 0 8

/-! ### Decoding (R73) -/

/-- Family 8 (R78): the trailing nibble selects one of nine operations; any other is a DecodeFailure. -/
def decodeFamily8 (x y : Reg) (n : Nibble) : Option Instr :=
  if n = 0x0#4 then some (.ldReg x y)
  else if n = 0x1#4 then some (.orReg x y)
  else if n = 0x2#4 then some (.andReg x y)
  else if n = 0x3#4 then some (.xorReg x y)
  else if n = 0x4#4 then some (.addReg x y)
  else if n = 0x5#4 then some (.subReg x y)
  else if n = 0x6#4 then some (.shr x y)
  else if n = 0x7#4 then some (.subnReg x y)
  else if n = 0xE#4 then some (.shl x y)
  else none

/-- Family E (R79): the trailing byte is on an allow-list of two. -/
def decodeFamilyE (x : Reg) (kk : Byte) : Option Instr :=
  if kk = 0x9E#8 then some (.skp x)
  else if kk = 0xA1#8 then some (.sknp x)
  else none

/-- Family F (R80): the trailing byte is on an allow-list of nine. -/
def decodeFamilyF (x : Reg) (kk : Byte) : Option Instr :=
  if kk = 0x07#8 then some (.ldVxDt x)
  else if kk = 0x0A#8 then some (.ldVxK x)
  else if kk = 0x15#8 then some (.ldDtVx x)
  else if kk = 0x18#8 then some (.ldStVx x)
  else if kk = 0x1E#8 then some (.addI x)
  else if kk = 0x29#8 then some (.ldF x)
  else if kk = 0x33#8 then some (.ldB x)
  else if kk = 0x55#8 then some (.ldMemVx x)
  else if kk = 0x65#8 then some (.ldVxMem x)
  else none

/-- Family 0 (R76): the whole word is compared; everything but CLS and RET is SYS. -/
def decodeFamily0 (op : Word) : Instr :=
  if op = 0x00E0#16 then .cls
  else if op = 0x00EE#16 then .ret
  else .sys (fieldNNN op)

/-- R73: one instruction, or the verdict DecodeFailure (`none`), for each of the 65536 words. -/
def decodeWord (op : Word) : Option Instr :=
  match (fieldF op).toNat with
  | 0x0 => some (decodeFamily0 op)
  | 0x1 => some (.jp (fieldNNN op))
  | 0x2 => some (.call (fieldNNN op))
  | 0x3 => some (.seByte (fieldX op) (fieldKK op))
  | 0x4 => some (.sneByte (fieldX op) (fieldKK op))
  | 0x5 => if fieldN op = 0#4 then some (.seReg (fieldX op) (fieldY op)) else none
  | 0x6 => some (.ldByte (fieldX op) (fieldKK op))
  | 0x7 => some (.addByte (fieldX op) (fieldKK op))
  | 0x8 => decodeFamily8 (fieldX op) (fieldY op) (fieldN op)
  | 0x9 => if fieldN op = 0#4 then some (.sneReg (fieldX op) (fieldY op)) else none
  | 0xA => some (.ldI (fieldNNN op))
  | 0xB => some (.jpV0 (fieldNNN op))
  | 0xC => some (.rnd (fieldX op) (fieldKK op))
  | 0xD => some (.drw (fieldX op) (fieldY op) (fieldN op).toFin)
  | 0xE => decodeFamilyE (fieldX op) (fieldKK op)
  | _   => decodeFamilyF (fieldX op) (fieldKK op)

/-- What decoding a byte string gives. -/
inductive Decoded where
  /-- An instruction and the bytes after it: every instruction is two bytes (R70). -/
  | instr (i : Instr) (rest : List Byte)
  /-- The verdict DecodeFailure with the raw word (R81, R202). -/
  | decodeFailure (opcode : Word)
  /-- Fewer than two bytes: no word to decode. -/
  | truncated
deriving DecidableEq, Repr

/-- Decode the first instruction of a byte string, the high byte first (R53, R70). -/
def decodeBytes : List Byte → Decoded
  | hi :: lo :: rest =>
    match decodeWord (wordOfBytes hi lo) with
    | some i => .instr i rest
    | none => .decodeFailure (wordOfBytes hi lo)
  | _ => .truncated

/-- The word of the opcode table's numbering (bit 0 the least significant of its one 16-bit word, bits from `nbits`
up zero). -/
def tableWord (nbits w : Nat) : Word := BitVec.ofNat 16 (w % 2 ^ nbits)

/-- The instruction the decoder reads from the word numbered as spec/opcode_table.json numbers it: the word is laid out
big-endian (R53) and given to `decodeBytes`. -/
def decodeTableWord (nbits w : Nat) : Option Instr :=
  match decodeBytes [hiByte (tableWord nbits w), loByte (tableWord nbits w)] with
  | .instr i _ => some i
  | _ => none

/-! ### The opcode table of R75 -/

/-- One row of R75's table: `op` selects it when `op AND mask = pattern`; `read` builds the instruction from the
row's fields. -/
structure TableRow where
  pattern : Word
  mask : Word
  read : Word → Instr

/-- R75's rows in the order of spec/opcode_table.json: CLS and RET stand before SYS, so the first match wins. -/
def opcodeTable : List TableRow := [
  ⟨0x00E0, 0xFFFF, fun _ => .cls⟩,
  ⟨0x00EE, 0xFFFF, fun _ => .ret⟩,
  ⟨0x0000, 0xF000, fun op => .sys (fieldNNN op)⟩,
  ⟨0x1000, 0xF000, fun op => .jp (fieldNNN op)⟩,
  ⟨0x2000, 0xF000, fun op => .call (fieldNNN op)⟩,
  ⟨0x3000, 0xF000, fun op => .seByte (fieldX op) (fieldKK op)⟩,
  ⟨0x4000, 0xF000, fun op => .sneByte (fieldX op) (fieldKK op)⟩,
  ⟨0x5000, 0xF00F, fun op => .seReg (fieldX op) (fieldY op)⟩,
  ⟨0x6000, 0xF000, fun op => .ldByte (fieldX op) (fieldKK op)⟩,
  ⟨0x7000, 0xF000, fun op => .addByte (fieldX op) (fieldKK op)⟩,
  ⟨0x8000, 0xF00F, fun op => .ldReg (fieldX op) (fieldY op)⟩,
  ⟨0x8001, 0xF00F, fun op => .orReg (fieldX op) (fieldY op)⟩] ++ [
  ⟨0x8002, 0xF00F, fun op => .andReg (fieldX op) (fieldY op)⟩,
  ⟨0x8003, 0xF00F, fun op => .xorReg (fieldX op) (fieldY op)⟩,
  ⟨0x8004, 0xF00F, fun op => .addReg (fieldX op) (fieldY op)⟩,
  ⟨0x8005, 0xF00F, fun op => .subReg (fieldX op) (fieldY op)⟩,
  ⟨0x8006, 0xF00F, fun op => .shr (fieldX op) (fieldY op)⟩,
  ⟨0x8007, 0xF00F, fun op => .subnReg (fieldX op) (fieldY op)⟩,
  ⟨0x800E, 0xF00F, fun op => .shl (fieldX op) (fieldY op)⟩,
  ⟨0x9000, 0xF00F, fun op => .sneReg (fieldX op) (fieldY op)⟩,
  ⟨0xA000, 0xF000, fun op => .ldI (fieldNNN op)⟩,
  ⟨0xB000, 0xF000, fun op => .jpV0 (fieldNNN op)⟩,
  ⟨0xC000, 0xF000, fun op => .rnd (fieldX op) (fieldKK op)⟩,
  ⟨0xD000, 0xF000, fun op => .drw (fieldX op) (fieldY op) (fieldN op).toFin⟩] ++ [
  ⟨0xE09E, 0xF0FF, fun op => .skp (fieldX op)⟩,
  ⟨0xE0A1, 0xF0FF, fun op => .sknp (fieldX op)⟩,
  ⟨0xF007, 0xF0FF, fun op => .ldVxDt (fieldX op)⟩,
  ⟨0xF00A, 0xF0FF, fun op => .ldVxK (fieldX op)⟩,
  ⟨0xF015, 0xF0FF, fun op => .ldDtVx (fieldX op)⟩,
  ⟨0xF018, 0xF0FF, fun op => .ldStVx (fieldX op)⟩,
  ⟨0xF01E, 0xF0FF, fun op => .addI (fieldX op)⟩,
  ⟨0xF029, 0xF0FF, fun op => .ldF (fieldX op)⟩,
  ⟨0xF033, 0xF0FF, fun op => .ldB (fieldX op)⟩,
  ⟨0xF055, 0xF0FF, fun op => .ldMemVx (fieldX op)⟩,
  ⟨0xF065, 0xF0FF, fun op => .ldVxMem (fieldX op)⟩]

/-- Decoding by the table: the first row that matches (R75). -/
def decodeByTable (op : Word) : Option Instr :=
  (opcodeTable.find? fun row => op &&& row.mask == row.pattern).map fun row => row.read op

/-! ### Encoding, by the formats of R71 -/

/-- A register index as the nibble that names it (R74). -/
def regNibble (x : Reg) : Nibble := BitVec.ofFin x

/-- Format NNN: `Tnnn`. -/
def wordNNN (t : Nibble) (nnn : Addr) : Word := t ++ nnn
/-- Format XKK: `Txkk`; also format XFF, with the function byte for kk. -/
def wordXKK (t : Nibble) (x : Reg) (kk : Byte) : Word := t ++ regNibble x ++ kk
/-- Format XYN: `Dxyn`; also format XYF, with the function nibble for n. -/
def wordXYN (t : Nibble) (x y : Reg) (n : Nibble) : Word := t ++ regNibble x ++ regNibble y ++ n

/-- The word of an instruction (R75). A SYS term that is not well formed gets the word of CLS or RET. -/
def encode : Instr → Word
  | .cls => 0x00E0#16
  | .ret => 0x00EE#16
  | .sys nnn => wordNNN 0x0 nnn
  | .jp nnn => wordNNN 0x1 nnn
  | .call nnn => wordNNN 0x2 nnn
  | .seByte x kk => wordXKK 0x3 x kk
  | .sneByte x kk => wordXKK 0x4 x kk
  | .seReg x y => wordXYN 0x5 x y 0x0
  | .ldByte x kk => wordXKK 0x6 x kk
  | .addByte x kk => wordXKK 0x7 x kk
  | .ldReg x y => wordXYN 0x8 x y 0x0
  | .orReg x y => wordXYN 0x8 x y 0x1
  | .andReg x y => wordXYN 0x8 x y 0x2
  | .xorReg x y => wordXYN 0x8 x y 0x3
  | .addReg x y => wordXYN 0x8 x y 0x4
  | .subReg x y => wordXYN 0x8 x y 0x5
  | .shr x y => wordXYN 0x8 x y 0x6
  | .subnReg x y => wordXYN 0x8 x y 0x7
  | .shl x y => wordXYN 0x8 x y 0xE
  | .sneReg x y => wordXYN 0x9 x y 0x0
  | .ldI nnn => wordNNN 0xA nnn
  | .jpV0 nnn => wordNNN 0xB nnn
  | .rnd x kk => wordXKK 0xC x kk
  | .drw x y n => wordXYN 0xD x y (BitVec.ofFin n)
  | .skp x => wordXKK 0xE x 0x9E
  | .sknp x => wordXKK 0xE x 0xA1
  | .ldVxDt x => wordXKK 0xF x 0x07
  | .ldVxK x => wordXKK 0xF x 0x0A
  | .ldDtVx x => wordXKK 0xF x 0x15
  | .ldStVx x => wordXKK 0xF x 0x18
  | .addI x => wordXKK 0xF x 0x1E
  | .ldF x => wordXKK 0xF x 0x29
  | .ldB x => wordXKK 0xF x 0x33
  | .ldMemVx x => wordXKK 0xF x 0x55
  | .ldVxMem x => wordXKK 0xF x 0x65

/-- The two bytes of an instruction, in the order they are stored (R53, R70). -/
def encodeBytes (i : Instr) : List Byte := [hiByte (encode i), loByte (encode i)]

end Sys2Proof
end

