-- ==== Sys2Proof/Machine/Fetch.lean ====
section
/-!
DEFINITION. Fetch and decode: what a step is about to do (40_step_fsm.md rules R100 to R102, R105, R107), and how an
instruction is placed for the next step to fetch.
-/
namespace Sys2Proof.Machine

/-- The two control states (R105). -/
inductive Control where
  | ready
  | faulted
deriving DecidableEq, Repr

/-- FAULT where a record is latched, else READY (R105). -/
def State.control (s : State) : Control := if s.fault.isSome then .faulted else .ready

/-- The word at an address, high byte first (R53). -/
def State.wordAt (s : State) (a : Nat) : Word := wordOfBytes (s.byte a) (s.byte (a + 1))

/-- Whether both bytes of a fetch at `pc` are in memory; the second address is not masked (R101). -/
def fetchable (p : Config.Params) (pc : Addr) : Bool := decide (pc.toNat + 1 < p.memSize)

/-- What the step does, up to the instruction's own rule (R100). -/
inductive Phase where
  /-- The core is halted: the step does nothing (R107). -/
  | halted
  /-- Fetch or decode raises this record (R101, R102). -/
  | raises (r : Fault)
  /-- The decoded instruction executes (R103). -/
  | executes (i : Instr)
deriving DecidableEq, Repr

/-- R100 in its order: halted, fetch, decode, execute. -/
def nextPhase (s : State) : Phase :=
  match s.fault with
  | some _ => .halted
  | none =>
    if fetchable s.params s.pc then
      match decodeWord (s.wordAt s.pc.toNat) with
      | some i => .executes i
      | none => .raises (.decodeFailure (s.wordAt s.pc.toNat))
    else .raises (.fetchOverrun s.pc)

/-- A pc the next step can fetch at: pc itself, else the load address. -/
def fetchPc (p : Config.Params) (pc : Addr) : Addr := if fetchable p pc then pc else BitVec.ofNat 12 Config.progBase

/-- Place a word, numbered as the opcode table numbers it, where the next step fetches (log entry 12): its two bytes at
pc, high byte first. A fetch needs no latched fault and a pc whose two bytes exist, so the latch is cleared and a pc
at the very top of memory moves to the load address; nothing else changes. -/
def placeWord (s : State) (nbits w : Nat) : State :=
  { s with
    pc := fetchPc s.params s.pc
    fault := none
    mem := s.mem.writeBytes s.params (fetchPc s.params s.pc).toNat [hiByte (tableWord nbits w), loByte (tableWord nbits w)] }

end Sys2Proof.Machine
end

