-- ==== Sys2Proof/Machine/Step.lean ====
section
/-!
DEFINITION. One step (40_step_fsm.md rule R100) and the placing of an instruction where it is fetched.
-/
namespace Sys2Proof.Machine

/-- R100: nothing when halted, one fault, or one whole instruction. The record the step returns is the latch's value
after it (R108, `stepReply`). -/
def step (s : State) : Host.Outcome State Fault Refusal :=
  match nextPhase s with
  | .halted => .next s
  | .raises r => raise s r
  | .executes i => exec i s

/-- `s` with a word of the opcode table where `step` fetches its next instruction (`placeWord`). -/
def State.withFetchWord (s : State) (nbits w : Nat) : State := placeWord s nbits w

end Sys2Proof.Machine
end

