-- ==== Sys2Proof/Machine/HostEvents.lean ====
section
/-!
DEFINITION. The host's six events (10_state.md rules R20 to R22; 60_exceptions.md rules R211, R216, R218, R220;
70_reset_and_hazards.md rules R230, R231). Each is one atomic transition; a run is any list of them, in the order
the host issues them (R22). `Machine.step` delivers none of the other five (log entry 10).
-/
namespace Sys2Proof.Machine

/-- What a key event reports (R218). -/
inductive KeyStatus where
  | pressed
  | released
deriving DecidableEq, Repr

/-- The six events of R21. -/
inductive HostEvent where
  /-- `reset_load(program)`: a list of bytes of any length. -/
  | resetLoad (program : List Byte)
  /-- `step(rnd)`: one step, with its free input byte. -/
  | step (rnd : Byte)
  /-- `key_event(k, s)`: k is any natural number. -/
  | keyEvent (k : Nat) (status : KeyStatus)
  /-- `tick(n)`: n periods have elapsed. -/
  | tick (n : Nat)
  /-- `get_snapshot()`. -/
  | getSnapshot
  /-- `read_status()`. -/
  | readStatus
deriving DecidableEq, Repr

/-- What an event returns to the host (R21). -/
inductive Reply where
  /-- `Ok` (`none`) or a fault record: the result of `step` and of `reset_load`. -/
  | result (r : Option Fault)
  /-- Nothing: `key_event` and `tick`. -/
  | nothing
  /-- `Some` copy of the framebuffer, or `None` (R220). -/
  | snapshot (f : Option Frame)
  /-- The value of the fault latch (R211). -/
  | status (r : Option Fault)
deriving DecidableEq, Repr

/-- A timer after n saturating decrements (R216). -/
def saturatingDecrement (t : Byte) (n : Nat) : Byte := BitVec.ofNat 8 (t.toNat - n)

/-- `tick(n)`: both timers in the same event (R216). -/
def tick (s : State) (n : Nat) : State :=
  { s with dt := saturatingDecrement s.dt n, st := saturatingDecrement s.st n }

/-- `key_event(k, s)`: the latch of key k; an index above 15 is ignored (R218). -/
def keyEvent (s : State) (k : Nat) (status : KeyStatus) : State :=
  if h : k < 16 then { s with key := s.key.set k (status == .pressed) } else s

/-- `get_snapshot()`: the frame, once per dirty (R220). -/
def snapshotReply (s : State) : Option Frame := if s.dirty then some s.fb else none

/-- The state after `get_snapshot()`: dirty is cleared (R220). -/
def takeSnapshot (s : State) : State := { s with dirty := false }

/-- The state after a successful `reset_load` (R230), of the same core: the parameters are kept. The count of free values
goes on, so that no two runs are bound to the same random bytes (log entry 1). -/
def loaded (s : State) (program : List Byte) : State :=
  { State.resetOf s.params with mem := Memory.load s.params program, draws := s.draws }

/-- The first bytes of memory, free ones, in its canonical form: the state after a rejected load. -/
def unspecifiedMemory (p : Config.Params) (d : Nat) : Nat → Memory
  | 0 => []
  | a + 1 => (unspecifiedMemory p d a).write p a (BitVec.ofNat 8 (Config.unspecified d 7 a))

/-- A screen of free pixels, of the right shape: the state after a rejected load. -/
def unspecifiedFrame (p : Config.Params) (d : Nat) : Frame :=
  (List.range p.height).map fun r => (List.range p.width).map fun c =>
    Config.unspecified d 8 (p.width * r + c) % 2 == 1

/-- The state after a rejected `reset_load` (R231): the record is latched and every other piece of state is
unspecified, a free value (U8; log entry 11). Each piece has a number of its own in `Config.unspecified`. The
parameters are no state (R38) and stay. -/
def rejected (s : State) (size : Nat) : State where
  params := s.params
  v := Vector.ofFn fun i => BitVec.ofNat 8 (Config.unspecified s.draws 0 i)
  i := BitVec.ofNat 16 (Config.unspecified s.draws 1 0)
  pc := BitVec.ofNat 12 (Config.unspecified s.draws 2 0)
  sp := Fin.ofNat 16 (Config.unspecified s.draws 3 0)
  stack := Vector.ofFn fun i => BitVec.ofNat 12 (Config.unspecified s.draws 4 i)
  dt := BitVec.ofNat 8 (Config.unspecified s.draws 5 0)
  st := BitVec.ofNat 8 (Config.unspecified s.draws 6 0)
  mem := unspecifiedMemory s.params s.draws s.params.memSize
  fb := unspecifiedFrame s.params s.draws
  dirty := Config.unspecified s.draws 9 0 % 2 == 1
  key := Vector.ofFn fun k => Config.unspecified s.draws 10 k % 2 == 1
  fault := some (.programTooLong size)
  rndIn := none
  draws := s.draws + 1

/-- `reset_load(program)` (R230, R231). -/
def resetLoad (s : State) (program : List Byte) : State :=
  if program.length ≤ progMax s.params then loaded s program else rejected s program.length

/-- The state in which the step of the event `step(rnd)` begins: the input byte is given (R37). -/
def withRnd (s : State) (rnd : Byte) : State := { s with rndIn := some rnd }

/-- The step's input is gone after the step, used or not (R37). -/
def dropRnd (s : State) : State := { s with rndIn := none }

/-- One host event: the next state and what is returned to the host (R21). -/
def handle (e : HostEvent) (s : State) : Host.Outcome (State × Reply) Fault Refusal :=
  match e with
  | .resetLoad program => .next (resetLoad s program, .result (stepReply (resetLoad s program)))
  | .step rnd =>
    match step (withRnd s rnd) with
    | .next t => .next (dropRnd t, .result (stepReply t))
    | .fault r => .fault r
    | .refused r => .refused r
  | .keyEvent k status => .next (keyEvent s k status, .nothing)
  | .tick n => .next (tick s n, .nothing)
  | .getSnapshot => .next (takeSnapshot s, .snapshot (snapshotReply s))
  | .readStatus => .next (s, .status s.fault)

/-- Any finite sequence of events, in the order issued (R22), with the replies in the same order. -/
def handleAll : List HostEvent → State → Host.Outcome (State × List Reply) Fault Refusal
  | [], s => .next (s, [])
  | e :: rest, s =>
    match handle e s with
    | .next (t, reply) =>
      match handleAll rest t with
      | .next (u, replies) => .next (u, reply :: replies)
      | .fault r => .fault r
      | .refused r => .refused r
    | .fault r => .fault r
    | .refused r => .refused r

end Sys2Proof.Machine
end

