-- ==== Sys2Proof/Safety.lean ====
section
/-!
DEFINITION. The terms claims are stated in: the halted core, the end of a run, the invariant of the state.
-/
namespace Sys2Proof.Safety

/-- The core is halted: a fault is latched (00_scope.md rule R12; 40_step_fsm.md rule R107). A halted state is never
the normal end of a run. -/
abbrev Halted (s : Machine.State) : Prop := s.fault.isSome = true

/-- R245's end of a run: no fault, and the instruction at pc jumps to itself. -/
abbrev Finished (s : Machine.State) : Prop :=
  s.fault = none ∧ Machine.fetchable s.params s.pc = true ∧ s.wordAt s.pc.toNat = wordNNN 0x1 s.pc

/-- The invariant of the state: the parameters are legal (R5), memory is in its canonical form, and the screen is a grid
of `H` rows of `W` pixels (R221). The bounds of R39 (a) to (d) hold of every state by the types of its fields. -/
abbrev Inv (s : Machine.State) : Prop :=
  Machine.validParams s.params = true ∧ s.mem.wf s.params = true ∧ s.fb.wf s.params = true

/-- The one event that leaves the halted condition (R107, R209). -/
def isResetLoad : Machine.HostEvent → Bool
  | .resetLoad _ => true
  | _ => false

end Sys2Proof.Safety
end

