-- ==== Sys2Proof/Certificates/Slice0/Obligations.lean ====
section
/-!
DEFINITION. The statements for the provers. Every statement about an instruction says that it completes, what it
writes, and its frame; the model's own fields, the parameters among them, are in the frames too. A statement about every
state is one about every value of the parameters of R5. Where a clause rests on a decision of the spec (D<n>) or on the
model's own choice, the docstring names it.
-/

/-! ### Parts of frames -/

/-- Every general register is unchanged. -/
def Sys2Proof.Claims.SameRegs (s t : Sys2Proof.Machine.State) : Prop := ∀ r, t.reg r = s.reg r

/-- Every byte of memory reads as before. -/
def Sys2Proof.Claims.SameMem (s t : Sys2Proof.Machine.State) : Prop := ∀ a, t.byte a = s.byte a

/-- The stack pointer and all sixteen slots are unchanged. -/
def Sys2Proof.Claims.SameStack (s t : Sys2Proof.Machine.State) : Prop := t.sp = s.sp ∧ t.stack = s.stack

/-- Both timers are unchanged. -/
def Sys2Proof.Claims.SameTimers (s t : Sys2Proof.Machine.State) : Prop := t.dt = s.dt ∧ t.st = s.st

/-- Every pixel and the dirty bit are unchanged. -/
def Sys2Proof.Claims.SameScreen (s t : Sys2Proof.Machine.State) : Prop := t.fb = s.fb ∧ t.dirty = s.dirty

/-- The key latches and the fault latch are unchanged. -/
def Sys2Proof.Claims.SameLatches (s t : Sys2Proof.Machine.State) : Prop := t.key = s.key ∧ t.fault = s.fault

/-- The model's own fields are unchanged: the parameters are the same and no free value was taken. -/
def Sys2Proof.Claims.SameOwn (s t : Sys2Proof.Machine.State) : Prop :=
  t.params = s.params ∧ t.rndIn = s.rndIn ∧ t.draws = s.draws

/-- Everything but the general registers and pc is unchanged. -/
def Sys2Proof.Claims.OnlyRegsPc (s t : Sys2Proof.Machine.State) : Prop :=
  t.i = s.i ∧ SameStack s t ∧ SameTimers s t ∧ SameMem s t ∧ SameScreen s t ∧ SameLatches s t ∧ SameOwn s t

/-- The fault entry of R208: the record is latched, everything else is as it was. -/
def Sys2Proof.Claims.latched (s : Sys2Proof.Machine.State) (r : Sys2Proof.Machine.Fault) : Sys2Proof.Machine.State :=
  { s with fault := some r }

/-- `w` is the word at pc: of its two bytes, the one at the lower address counts 256 times (R53, R70, R101). -/
def Sys2Proof.Claims.WordAtPc (s : Sys2Proof.Machine.State) (w : Sys2Proof.Word) : Prop :=
  w.toNat = 256 * (s.byte s.pc.toNat).toNat + (s.byte (s.pc.toNat + 1)).toNat

section
open Sys2Proof Sys2Proof.Machine Sys2Proof.Claims

/-! ### System, jump, call, return, skip (41_flow.md) -/

/-- R110: SYS is every word of family 0 but two; it only advances pc. -/
def Obligations.SysAdvancesOnly : Prop :=
  ∀ (nnn : Addr) (s : State),
    (nnn ≠ 0x0E0#12 → nnn ≠ 0x0EE#12 → decodeWord (wordNNN 0x0 nnn) = some (.sys nnn)) ∧
    ∃ t, exec (.sys nnn) s = .next t ∧ t.pc = s.pc + 2 ∧ SameRegs s t ∧ OnlyRegsPc s t

/-- R111: CLS turns every pixel Off and sets dirty. That dirty is set also where no pixel changes is the spec's D21. -/
def Obligations.ClsClearsTheScreen : Prop :=
  decodeWord 0x00E0 = some .cls ∧ ∀ s : State,
    ∃ t, exec .cls s = .next t ∧ (∀ row < s.params.height, ∀ col < s.params.width, t.fb.pixel row col = false) ∧
      t.fb.wf s.params = true ∧ t.dirty = true ∧ t.pc = s.pc + 2 ∧ SameRegs s t ∧ t.i = s.i ∧ SameStack s t ∧
      SameTimers s t ∧ SameMem s t ∧ SameLatches s t ∧ SameOwn s t

/-- R112, R204: RET latches StackUnderflow with its own pc where `sp = 0`, and changes nothing else; where `sp = j + 1`
it sets `sp` to j and pc to slot j, which keeps its value. What a slot holds is the spec's D8. -/
def Obligations.RetPopsOrUnderflows : Prop :=
  decodeWord 0x00EE = some .ret ∧ ∀ s : State,
    (s.sp.val = 0 → exec .ret s = .next (latched s (.stackUnderflow s.pc))) ∧
    ∀ j : Fin 16, s.sp.val = j.val + 1 →
      ∃ t, exec .ret s = .next t ∧ t.sp = j ∧ t.pc = s.stack[j] ∧ t.stack = s.stack ∧ SameRegs s t ∧ t.i = s.i ∧
        SameTimers s t ∧ SameMem s t ∧ SameScreen s t ∧ SameLatches s t ∧ SameOwn s t

/-- R113: JP sets pc to its target, whatever it is. -/
def Obligations.JpSetsPc : Prop :=
  ∀ (nnn : Addr) (s : State), decodeWord (wordNNN 0x1 nnn) = some (.jp nnn) ∧
    ∃ t, exec (.jp nnn) s = .next t ∧ t.pc = nnn ∧ SameRegs s t ∧ OnlyRegsPc s t

/-- R114, R203: CALL latches StackOverflow with its own pc where `sp = 15`, and changes nothing else; below that it
writes the address of the next instruction to slot `sp` only, adds 1 to `sp` and jumps. The slot, what it holds and
the depth of 15 are the spec's D8. -/
def Obligations.CallPushesOrOverflows : Prop :=
  ∀ (nnn : Addr) (s : State), decodeWord (wordNNN 0x2 nnn) = some (.call nnn) ∧
    (s.sp.val = 15 → exec (.call nnn) s = .next (latched s (.stackOverflow s.pc))) ∧
    (s.sp.val < 15 → ∃ t, exec (.call nnn) s = .next t ∧ t.pc = nnn ∧ t.sp.val = s.sp.val + 1 ∧
      (∀ j : Fin 16, t.stack[j] = if j = s.sp then s.pc + 2 else s.stack[j]) ∧ SameRegs s t ∧ t.i = s.i ∧
      SameTimers s t ∧ SameMem s t ∧ SameScreen s t ∧ SameLatches s t ∧ SameOwn s t)

/-- R115, R116: the byte skips compare Vx with kk and write pc only. -/
def Obligations.ByteSkips : Prop :=
  ∀ (x : Reg) (kk : Byte) (s : State),
    (decodeWord (wordXKK 0x3 x kk) = some (.seByte x kk) ∧
      ∃ t, exec (.seByte x kk) s = .next t ∧ (s.reg x = kk → t.pc = s.pc + 4) ∧ (s.reg x ≠ kk → t.pc = s.pc + 2) ∧
        SameRegs s t ∧ OnlyRegsPc s t) ∧
    (decodeWord (wordXKK 0x4 x kk) = some (.sneByte x kk) ∧
      ∃ t, exec (.sneByte x kk) s = .next t ∧ (s.reg x ≠ kk → t.pc = s.pc + 4) ∧ (s.reg x = kk → t.pc = s.pc + 2) ∧
        SameRegs s t ∧ OnlyRegsPc s t)

/-- R117, R118: the register skips compare Vx with Vy and write pc only; the words with another trailing nibble decode
to nothing. -/
def Obligations.RegisterSkips : Prop :=
  ∀ (x y : Reg) (s : State),
    (∀ n : Nibble, n ≠ 0 → decodeWord (wordXYN 0x5 x y n) = none ∧ decodeWord (wordXYN 0x9 x y n) = none) ∧
    (decodeWord (wordXYN 0x5 x y 0x0) = some (.seReg x y) ∧
      ∃ t, exec (.seReg x y) s = .next t ∧ (s.reg x = s.reg y → t.pc = s.pc + 4) ∧
        (s.reg x ≠ s.reg y → t.pc = s.pc + 2) ∧ SameRegs s t ∧ OnlyRegsPc s t) ∧
    (decodeWord (wordXYN 0x9 x y 0x0) = some (.sneReg x y) ∧
      ∃ t, exec (.sneReg x y) s = .next t ∧ (s.reg x ≠ s.reg y → t.pc = s.pc + 4) ∧
        (s.reg x = s.reg y → t.pc = s.pc + 2) ∧ SameRegs s t ∧ OnlyRegsPc s t)

/-- R119: JP V0 jumps to `(nnn + V0) mod 4096`, always V0. The reduction is the spec's D28. -/
def Obligations.JpV0AddsV0 : Prop :=
  ∀ (nnn : Addr) (s : State), decodeWord (wordNNN 0xB nnn) = some (.jpV0 nnn) ∧
    ∃ t, exec (.jpV0 nnn) s = .next t ∧ t.pc.toNat = (nnn.toNat + (s.reg 0).toNat) % 4096 ∧ SameRegs s t ∧ OnlyRegsPc s t

/-! ### Load, arithmetic, logic, shift (42_alu.md) -/

/-- R132, R133, R134: the loads and ADD Vx, kk write Vx only; VF changes only where it is Vx. -/
def Obligations.LoadsAndAddByte : Prop :=
  ∀ (x y : Reg) (kk : Byte) (s : State),
    (decodeWord (wordXKK 0x6 x kk) = some (.ldByte x kk) ∧
      ∃ t, exec (.ldByte x kk) s = .next t ∧ (∀ r, t.reg r = if r = x then kk else s.reg r) ∧ t.pc = s.pc + 2 ∧
        OnlyRegsPc s t) ∧
    (decodeWord (wordXKK 0x7 x kk) = some (.addByte x kk) ∧
      ∃ t, exec (.addByte x kk) s = .next t ∧ (t.reg x).toNat = ((s.reg x).toNat + kk.toNat) % 256 ∧
        (∀ r, r ≠ x → t.reg r = s.reg r) ∧ t.pc = s.pc + 2 ∧ OnlyRegsPc s t) ∧
    (decodeWord (wordXYN 0x8 x y 0x0) = some (.ldReg x y) ∧
      ∃ t, exec (.ldReg x y) s = .next t ∧ (∀ r, t.reg r = if r = x then s.reg y else s.reg r) ∧ t.pc = s.pc + 2 ∧
        OnlyRegsPc s t)

/-- R135, R136, R137: OR, AND, XOR, bit by bit. That they leave VF alone, but where it is Vx, is the spec's D13. -/
def Obligations.LogicBitByBit : Prop :=
  ∀ (x y : Reg) (s : State),
    (decodeWord (wordXYN 0x8 x y 0x1) = some (.orReg x y) ∧
      ∃ t, exec (.orReg x y) s = .next t ∧
        (∀ b, (t.reg x).getLsbD b = ((s.reg x).getLsbD b || (s.reg y).getLsbD b)) ∧
        (∀ r, r ≠ x → t.reg r = s.reg r) ∧ t.pc = s.pc + 2 ∧ OnlyRegsPc s t) ∧
    (decodeWord (wordXYN 0x8 x y 0x2) = some (.andReg x y) ∧
      ∃ t, exec (.andReg x y) s = .next t ∧
        (∀ b, (t.reg x).getLsbD b = ((s.reg x).getLsbD b && (s.reg y).getLsbD b)) ∧
        (∀ r, r ≠ x → t.reg r = s.reg r) ∧ t.pc = s.pc + 2 ∧ OnlyRegsPc s t) ∧
    (decodeWord (wordXYN 0x8 x y 0x3) = some (.xorReg x y) ∧
      ∃ t, exec (.xorReg x y) s = .next t ∧
        (∀ b, (t.reg x).getLsbD b = ((s.reg x).getLsbD b != (s.reg y).getLsbD b)) ∧
        (∀ r, r ≠ x → t.reg r = s.reg r) ∧ t.pc = s.pc + 2 ∧ OnlyRegsPc s t)

/-- R138: ADD Vx, Vy with the carry in VF, for every x and y, VF among them: VF ends as the carry. -/
def Obligations.AddRegisterCarry : Prop :=
  ∀ (x y : Reg) (s : State), decodeWord (wordXYN 0x8 x y 0x4) = some (.addReg x y) ∧
    ∃ t, exec (.addReg x y) s = .next t ∧
      (x ≠ 15 → (t.reg x).toNat = ((s.reg x).toNat + (s.reg y).toNat) % 256) ∧
      t.reg 15 = (if (s.reg x).toNat + (s.reg y).toNat > 255 then 1 else 0) ∧
      (∀ r, r ≠ x → r ≠ 15 → t.reg r = s.reg r) ∧ t.pc = s.pc + 2 ∧ OnlyRegsPc s t

/-- R139, R141: SUB and SUBN with "no borrow" in VF, for every x and y, VF among them. -/
def Obligations.SubtractNoBorrow : Prop :=
  ∀ (x y : Reg) (s : State),
    (decodeWord (wordXYN 0x8 x y 0x5) = some (.subReg x y) ∧
      ∃ t, exec (.subReg x y) s = .next t ∧
        (x ≠ 15 → (t.reg x).toNat = (256 + (s.reg x).toNat - (s.reg y).toNat) % 256) ∧
        t.reg 15 = (if (s.reg x).toNat ≥ (s.reg y).toNat then 1 else 0) ∧
        (∀ r, r ≠ x → r ≠ 15 → t.reg r = s.reg r) ∧ t.pc = s.pc + 2 ∧ OnlyRegsPc s t) ∧
    (decodeWord (wordXYN 0x8 x y 0x7) = some (.subnReg x y) ∧
      ∃ t, exec (.subnReg x y) s = .next t ∧
        (x ≠ 15 → (t.reg x).toNat = (256 + (s.reg y).toNat - (s.reg x).toNat) % 256) ∧
        t.reg 15 = (if (s.reg y).toNat ≥ (s.reg x).toNat then 1 else 0) ∧
        (∀ r, r ≠ x → r ≠ 15 → t.reg r = s.reg r) ∧ t.pc = s.pc + 2 ∧ OnlyRegsPc s t)

/-- R140, R142: the shifts move Vx by one place, whatever y is; VF ends as the bit moved out. That y is ignored is what
the document says the core does, kept by the spec's D14. -/
def Obligations.ShiftsByOne : Prop :=
  ∀ (x y : Reg) (s : State),
    (decodeWord (wordXYN 0x8 x y 0x6) = some (.shr x y) ∧
      ∃ t, exec (.shr x y) s = .next t ∧ (x ≠ 15 → (t.reg x).toNat = (s.reg x).toNat / 2) ∧
        (t.reg 15).toNat = (s.reg x).toNat % 2 ∧
        (∀ r, r ≠ x → r ≠ 15 → t.reg r = s.reg r) ∧ t.pc = s.pc + 2 ∧ OnlyRegsPc s t) ∧
    (decodeWord (wordXYN 0x8 x y 0xE) = some (.shl x y) ∧
      ∃ t, exec (.shl x y) s = .next t ∧ (x ≠ 15 → (t.reg x).toNat = (s.reg x).toNat * 2 % 256) ∧
        (t.reg 15).toNat = (s.reg x).toNat / 128 ∧
        (∀ r, r ≠ x → r ≠ 15 → t.reg r = s.reg r) ∧ t.pc = s.pc + 2 ∧ OnlyRegsPc s t)

/-! ### Index register and random (43_index_random.md) -/

/-- R150: LD I writes the zero-extended immediate to I, and advances. -/
def Obligations.LdIZeroExtends : Prop :=
  ∀ (nnn : Addr) (s : State), decodeWord (wordNNN 0xA nnn) = some (.ldI nnn) ∧
    ∃ t, exec (.ldI nnn) s = .next t ∧ t.i.toNat = nnn.toNat ∧ t.pc = s.pc + 2 ∧ SameRegs s t ∧ SameStack s t ∧
      SameTimers s t ∧ SameMem s t ∧ SameScreen s t ∧ SameLatches s t ∧ SameOwn s t

/-- R151: RND writes the step's free byte ANDed with kk to Vx. The byte is the host's where the host gave one, else a
value of `Config.rnd`, about which nothing is known (the model's form of R37, log entry 1); taking it moves the
model's own fields to the next one. -/
def Obligations.RndMasksTheFreeByte : Prop :=
  ∀ (x : Reg) (kk : Byte) (s : State), decodeWord (wordXKK 0xC x kk) = some (.rnd x kk) ∧
    ∃ t b, exec (.rnd x kk) s = .next t ∧ (∀ c, s.rndIn = some c → b = c) ∧ (s.rndIn = none → b = Config.rnd s.draws) ∧
      (∀ r, t.reg r = if r = x then b &&& kk else s.reg r) ∧ t.pc = s.pc + 2 ∧ t.rndIn = none ∧ t.draws = s.draws + 1 ∧
      t.i = s.i ∧ SameStack s t ∧ SameTimers s t ∧ SameMem s t ∧ SameScreen s t ∧ SameLatches s t ∧ t.params = s.params

/-- R152: ADD I, Vx adds modulo 65536 and leaves VF alone. That the sum is not masked and wraps at 16 bits is the
spec's D15. -/
def Obligations.AddIWrapsAtSixteenBits : Prop :=
  ∀ (x : Reg) (s : State), decodeWord (wordXKK 0xF x 0x1E) = some (.addI x) ∧
    ∃ t, exec (.addI x) s = .next t ∧ t.i.toNat = (s.i.toNat + (s.reg x).toNat) % 65536 ∧ t.pc = s.pc + 2 ∧ SameRegs s t ∧
      SameStack s t ∧ SameTimers s t ∧ SameMem s t ∧ SameScreen s t ∧ SameLatches s t ∧ SameOwn s t

/-- R153: LD F sets I to five times the low nibble of Vx. -/
def Obligations.LdFSelectsTheGlyph : Prop :=
  ∀ (x : Reg) (s : State), decodeWord (wordXKK 0xF x 0x29) = some (.ldF x) ∧
    ∃ t, exec (.ldF x) s = .next t ∧ t.i.toNat = 5 * ((s.reg x).toNat % 16) ∧ t.pc = s.pc + 2 ∧ SameRegs s t ∧
      SameStack s t ∧ SameTimers s t ∧ SameMem s t ∧ SameScreen s t ∧ SameLatches s t ∧ SameOwn s t

/-! ### Draw (44_draw.md) -/

/-- A 1 bit of the sprite of `DRW Vx, Vy, n` lies on this pixel (R160, R161): sprite row r is the byte at `I[11:0] + r`,
sprite column k its bit `7 - k`; rows past the bottom lie on no pixel; columns past the right edge lie on the left end
of the row in mode `wrap` and on no pixel in mode `clip`. -/
def Sys2Proof.Claims.SpriteBitOn (mode : Config.XOverflow) (s : State) (x y : Reg) (n row col : Nat) : Prop :=
  ∃ r k : Nat, r < n ∧ k < 8 ∧ (s.byte (s.dataAddr + r)).getLsbD (7 - k) = true ∧
    (s.reg y).toNat % s.params.height + r = row ∧ row < s.params.height ∧ col < s.params.width ∧
    ((s.reg x).toNat % s.params.width + k = col ∨
      (mode = .wrap ∧ (s.reg x).toNat % s.params.width + k = col + s.params.width))

/-- R163: DRW flips exactly the pixels under a 1 bit of the sprite, sets VF to 1 where one of them was On and to 0
otherwise, and sets dirty; or, where its n bytes leave memory, latches MemoryOverrun and changes nothing else. The
sprite is at the low 12 bits of I (R28, R59, the spec's D15). It holds for both values of DRAW_X_OVERFLOW, which the model
leaves open (log entry 2). The range check, the bit order and dirty are the spec's D16, D19, D21. That n = 0 faults too where
`I[11:0]` is above MEM_SIZE, which needs a MEM_SIZE below 0xFFF, is the model's choice (log entry 22). -/
def Obligations.DrwFlipsPixelsAndReports : Prop :=
  ∀ (x y : Reg) (n : Fin 16) (s : State),
    decodeWord (wordXYN 0xD x y (BitVec.ofFin n)) = some (.drw x y n) ∧ s.dataAddr = s.i.toNat % 4096 ∧
    (s.dataAddr + n.val > s.params.memSize → exec (.drw x y n) s = .next (latched s (.memoryOverrun s.pc))) ∧
    (s.dataAddr + n.val ≤ s.params.memSize → Safety.Inv s → ∃ t, exec (.drw x y n) s = .next t ∧
      (∀ row col, SpriteBitOn Config.drawXOverflow s x y n.val row col → t.fb.pixel row col = !s.fb.pixel row col) ∧
      (∀ row col, ¬ SpriteBitOn Config.drawXOverflow s x y n.val row col → t.fb.pixel row col = s.fb.pixel row col) ∧
      ((∃ row col, SpriteBitOn Config.drawXOverflow s x y n.val row col ∧ s.fb.pixel row col = true) → t.reg 15 = 1) ∧
      ((∀ row col, SpriteBitOn Config.drawXOverflow s x y n.val row col → s.fb.pixel row col = false) → t.reg 15 = 0) ∧
      (∀ r, r ≠ 15 → t.reg r = s.reg r) ∧ t.dirty = true ∧ t.pc = s.pc + 2 ∧ t.i = s.i ∧ SameStack s t ∧
      SameTimers s t ∧ SameMem s t ∧ SameLatches s t ∧ SameOwn s t)

/-- R164 (b), the spec's own inference: after a DRW that does not fault, VF is 1 exactly where some pixel that was On is
Off. -/
def Obligations.DrwCollisionIsAPixelTurnedOff : Prop :=
  ∀ (x y : Reg) (n : Fin 16) (s t : State), Safety.Inv s → exec (.drw x y n) s = .next t →
    s.dataAddr + n.val ≤ s.params.memSize →
    (t.reg 15 = 1 ↔ ∃ row < s.params.height, ∃ col < s.params.width,
      s.fb.pixel row col = true ∧ t.fb.pixel row col = false)

/-- R164 (a), the spec's own inference: the same DRW again, with the same coordinates, I and sprite bytes and the
screen as the first left it, restores every pixel; and where the first draw met only Off pixels and lit one, the
second reports a collision. -/
def Obligations.DrwTwiceRestoresTheScreen : Prop :=
  ∀ (x y : Reg) (n : Fin 16) (s t s' u : State), Safety.Inv s → exec (.drw x y n) s = .next t →
    s.dataAddr + n.val ≤ s.params.memSize → s'.params = s.params → s'.reg x = s.reg x → s'.reg y = s.reg y →
    s'.i = s.i → (∀ k < n.val, s'.byte (s.dataAddr + k) = s.byte (s.dataAddr + k)) → s'.fb = t.fb →
    exec (.drw x y n) s' = .next u →
    u.fb = s.fb ∧ (t.reg 15 = 0 → t.fb ≠ s.fb → u.reg 15 = 1)

/-- R164 (d), the spec's own inference: a pixel that a DRW changes lies in the sprite's rows and columns; in mode `wrap`
also in the columns at the left end that the sprite wraps to. -/
def Obligations.DrwChangesOnlyTheSpritesPlace : Prop :=
  ∀ (x y : Reg) (n : Fin 16) (s t : State) (row col : Nat), Safety.Inv s → exec (.drw x y n) s = .next t →
    t.fb.pixel row col ≠ s.fb.pixel row col →
    (s.reg y).toNat % s.params.height ≤ row ∧ row < (s.reg y).toNat % s.params.height + n.val ∧
    row < s.params.height ∧ col < s.params.width ∧
    (((s.reg x).toNat % s.params.width ≤ col ∧ col < (s.reg x).toNat % s.params.width + 8) ∨
      (Config.drawXOverflow = .wrap ∧ col + s.params.width < (s.reg x).toNat % s.params.width + 8))

/-! ### Keypad (45_keypad.md): the spec's decisions D22 and D23 -/

/-- R170, R171 (the spec's D22): the key skips test the latch that the low nibble of Vx selects, and write pc only. -/
def Obligations.KeySkips : Prop :=
  ∀ (x : Reg) (s : State) (k : Fin 16), k.val = (s.reg x).toNat % 16 →
    (decodeWord (wordXKK 0xE x 0x9E) = some (.skp x) ∧
      ∃ t, exec (.skp x) s = .next t ∧ (s.key[k] = true → t.pc = s.pc + 4) ∧ (s.key[k] = false → t.pc = s.pc + 2) ∧
        SameRegs s t ∧ OnlyRegsPc s t) ∧
    (decodeWord (wordXKK 0xE x 0xA1) = some (.sknp x) ∧
      ∃ t, exec (.sknp x) s = .next t ∧ (s.key[k] = false → t.pc = s.pc + 4) ∧ (s.key[k] = true → t.pc = s.pc + 2) ∧
        SameRegs s t ∧ OnlyRegsPc s t)

/-- R172 (the spec's D23): LD Vx, K writes the least pressed key to Vx and advances; where none is pressed it holds and
changes nothing at all. -/
def Obligations.LdKeyTakesTheLeastOrHolds : Prop :=
  ∀ (x : Reg) (s : State), decodeWord (wordXKK 0xF x 0x0A) = some (.ldVxK x) ∧
    ((∀ k : Fin 16, s.key[k] = false) → exec (.ldVxK x) s = .next s) ∧
    ∀ k : Fin 16, s.key[k] = true → (∀ j : Fin 16, j < k → s.key[j] = false) →
      ∃ t, exec (.ldVxK x) s = .next t ∧ (t.reg x).toNat = k.val ∧ (∀ r, r ≠ x → t.reg r = s.reg r) ∧
        t.pc = s.pc + 2 ∧ OnlyRegsPc s t

/-! ### Timers and memory (46_timers_memory.md) -/

/-- R180, R181, R182 (the spec's D25): reading DT, setting DT, setting ST. -/
def Obligations.TimerInstructions : Prop :=
  ∀ (x : Reg) (s : State),
    (decodeWord (wordXKK 0xF x 0x07) = some (.ldVxDt x) ∧
      ∃ t, exec (.ldVxDt x) s = .next t ∧ (∀ r, t.reg r = if r = x then s.dt else s.reg r) ∧ t.pc = s.pc + 2 ∧
        OnlyRegsPc s t) ∧
    (decodeWord (wordXKK 0xF x 0x15) = some (.ldDtVx x) ∧
      ∃ t, exec (.ldDtVx x) s = .next t ∧ t.dt = s.reg x ∧ t.st = s.st ∧ t.pc = s.pc + 2 ∧ SameRegs s t ∧ t.i = s.i ∧
        SameStack s t ∧ SameMem s t ∧ SameScreen s t ∧ SameLatches s t ∧ SameOwn s t) ∧
    (decodeWord (wordXKK 0xF x 0x18) = some (.ldStVx x) ∧
      ∃ t, exec (.ldStVx x) s = .next t ∧ t.st = s.reg x ∧ t.dt = s.dt ∧ t.pc = s.pc + 2 ∧ SameRegs s t ∧ t.i = s.i ∧
        SameStack s t ∧ SameMem s t ∧ SameScreen s t ∧ SameLatches s t ∧ SameOwn s t)

/-- R183: LD B writes the three decimal digits of Vx at `I[11:0]` and the two addresses after it, and no other byte;
or, where one of the three is no byte of memory, latches MemoryOverrun and changes nothing else. The order of the
digits, the range check and the use of the low 12 bits of I are the spec's D18, D16 and D15. -/
def Obligations.LdBStoresThreeDigits : Prop :=
  ∀ (x : Reg) (s : State), decodeWord (wordXKK 0xF x 0x33) = some (.ldB x) ∧
    s.dataAddr = s.i.toNat % 4096 ∧
    (s.dataAddr + 3 > s.params.memSize → exec (.ldB x) s = .next (latched s (.memoryOverrun s.pc))) ∧
    (s.dataAddr + 3 ≤ s.params.memSize → s.mem.wf s.params = true → ∃ t, exec (.ldB x) s = .next t ∧
      (t.byte s.dataAddr).toNat = (s.reg x).toNat / 100 ∧
      (t.byte (s.dataAddr + 1)).toNat = (s.reg x).toNat / 10 % 10 ∧
      (t.byte (s.dataAddr + 2)).toNat = (s.reg x).toNat % 10 ∧
      (∀ c, c < s.dataAddr ∨ s.dataAddr + 3 ≤ c → t.byte c = s.byte c) ∧
      t.pc = s.pc + 2 ∧ SameRegs s t ∧ t.i = s.i ∧ SameStack s t ∧ SameTimers s t ∧ SameScreen s t ∧ SameLatches s t ∧
      SameOwn s t)

/-- R184: LD [I], Vx stores V0 .. Vx from `I[11:0]` on, and no other byte; or latches MemoryOverrun and changes nothing
else. That I is unchanged, the whole range is checked first and the low 12 bits of I are used
are the spec's D17, D16 and D15. -/
def Obligations.StoreRegisterRange : Prop :=
  ∀ (x : Reg) (s : State), decodeWord (wordXKK 0xF x 0x55) = some (.ldMemVx x) ∧
    s.dataAddr = s.i.toNat % 4096 ∧
    (s.dataAddr + (x.val + 1) > s.params.memSize → exec (.ldMemVx x) s = .next (latched s (.memoryOverrun s.pc))) ∧
    (s.dataAddr + (x.val + 1) ≤ s.params.memSize → s.mem.wf s.params = true → ∃ t, exec (.ldMemVx x) s = .next t ∧
      (∀ r : Reg, r ≤ x → t.byte (s.dataAddr + r.val) = s.reg r) ∧
      (∀ c, c < s.dataAddr ∨ s.dataAddr + (x.val + 1) ≤ c → t.byte c = s.byte c) ∧
      t.pc = s.pc + 2 ∧ SameRegs s t ∧ t.i = s.i ∧ SameStack s t ∧ SameTimers s t ∧ SameScreen s t ∧ SameLatches s t ∧
      SameOwn s t)

/-- R185: LD Vx, [I] loads V0 .. Vx from `I[11:0]` on, and no other register; or latches MemoryOverrun and changes
nothing else. That I is unchanged, the whole range is checked first and the low 12 bits of I are used
are the spec's D17, D16 and D15. -/
def Obligations.LoadRegisterRange : Prop :=
  ∀ (x : Reg) (s : State), decodeWord (wordXKK 0xF x 0x65) = some (.ldVxMem x) ∧
    s.dataAddr = s.i.toNat % 4096 ∧
    (s.dataAddr + (x.val + 1) > s.params.memSize → exec (.ldVxMem x) s = .next (latched s (.memoryOverrun s.pc))) ∧
    (s.dataAddr + (x.val + 1) ≤ s.params.memSize → ∃ t, exec (.ldVxMem x) s = .next t ∧
      (∀ r : Reg, t.reg r = if r ≤ x then s.byte (s.dataAddr + r.val) else s.reg r) ∧ t.pc = s.pc + 2 ∧
      OnlyRegsPc s t)

/-! ### The step (40_step_fsm.md) -/

/-- R100, R103: a core that is not halted, whose two bytes at pc are in memory and make the word w, the byte at the lower
address in the high half (R53, R70), and whose w decodes to i, steps as `exec i`; nothing is added around it, and i is
well formed. -/
def Obligations.StepRunsTheDecodedInstruction : Prop :=
  ∀ (s : State) (w : Word) (i : Instr), s.fault = none → s.pc.toNat + 1 < s.params.memSize → WordAtPc s w →
    decodeWord w = some i → step s = exec i s ∧ i.WellFormed

/-- R101, R206 (the spec's own fault, D3; log entry 9): a fetch whose second byte is not in memory latches
FetchOverrun with pc, and nothing else changes. -/
def Obligations.FetchPastTheTopLatches : Prop :=
  ∀ s : State, s.fault = none → s.pc.toNat + 1 ≥ s.params.memSize → step s = .next (latched s (.fetchOverrun s.pc))

/-- R102: a word that decodes to nothing latches DecodeFailure with the raw word; pc stays. -/
def Obligations.IllegalWordLatchesDecodeFailure : Prop :=
  ∀ (s : State) (w : Word), s.fault = none → s.pc.toNat + 1 < s.params.memSize → WordAtPc s w →
    decodeWord w = none → step s = .next (latched s (.decodeFailure w))

/-- R107 (the spec's D5; log entry 8): the step of a halted core returns the latched record and changes nothing. -/
def Obligations.HaltedStepChangesNothing : Prop :=
  ∀ (s : State) (r : Fault), s.fault = some r → ∃ t, step s = .next t ∧ t = s ∧ stepReply t = some r

/-- R20, R108: every step of every state answers a next state: it never waits and never stops the model. That a fault's
entry is a next state is the model's reading of R208 (log entry 8). -/
def Obligations.EveryStepAnswersNext : Prop :=
  ∀ s : State, ∃ t, step s = .next t

/-- R106, R208 (the spec's D6; log entry 8): a step that latches a fault changes the latch and nothing else. -/
def Obligations.FaultingStepChangesOnlyTheLatch : Prop :=
  ∀ (s t : State) (r : Fault), s.fault = none → step s = .next t → t.fault = some r → t = latched s r

/-- R200, R207: which record a step latches, and that it latches none otherwise: FetchOverrun first, then
DecodeFailure, then the one check of the instruction. That DRW with n = 0 is checked too, which can fail only for a MEM_SIZE
below 0xFFF, is the model's choice (log entry 22). -/
def Obligations.FaultConditions : Prop :=
  ∀ s t : State, s.fault = none → step s = .next t →
    (s.pc.toNat + 1 ≥ s.params.memSize → t.fault = some (.fetchOverrun s.pc)) ∧
    (s.pc.toNat + 1 < s.params.memSize → ∀ w, WordAtPc s w →
      match decodeWord w with
      | none => t.fault = some (.decodeFailure w)
      | some (.call _) => t.fault = if s.sp.val = 15 then some (.stackOverflow s.pc) else none
      | some .ret => t.fault = if s.sp.val = 0 then some (.stackUnderflow s.pc) else none
      | some (.drw _ _ n) => t.fault = if s.dataAddr + n.val > s.params.memSize then some (.memoryOverrun s.pc) else none
      | some (.ldB _) => t.fault = if s.dataAddr + 3 > s.params.memSize then some (.memoryOverrun s.pc) else none
      | some (.ldMemVx x) =>
        t.fault = if s.dataAddr + (x.val + 1) > s.params.memSize then some (.memoryOverrun s.pc) else none
      | some (.ldVxMem x) =>
        t.fault = if s.dataAddr + (x.val + 1) > s.params.memSize then some (.memoryOverrun s.pc) else none
      | some _ => t.fault = none)

/-- R104: the four ways an instruction that completes writes pc: a target, `skip`, `hold`, else `advance`. -/
def Obligations.PcUpdateByInstruction : Prop :=
  ∀ (i : Instr) (s t : State), s.fault = none → exec i s = .next t → t.fault = none →
    match i with
    | .jp nnn | .call nnn => t.pc = nnn
    | .ret => ∃ j : Fin 16, j.val + 1 = s.sp.val ∧ t.pc = s.stack[j]
    | .jpV0 nnn => t.pc = nnn + (s.reg 0).setWidth 12
    | .seByte _ _ | .sneByte _ _ | .seReg _ _ | .sneReg _ _ | .skp _ | .sknp _ => t.pc = s.pc + 2 ∨ t.pc = s.pc + 4
    | .ldVxK _ => (t.pc = s.pc ∧ ∀ k : Fin 16, s.key[k] = false) ∨ (t.pc = s.pc + 2 ∧ ∃ k : Fin 16, s.key[k] = true)
    | _ => t.pc = s.pc + 2

/-- R55, R64: LD B and LD [I], Vx are the only instructions that write memory. -/
def Obligations.OnlyTwoInstructionsWriteMemory : Prop :=
  ∀ (i : Instr) (s t : State), exec i s = .next t →
    match i with
    | .ldB _ | .ldMemVx _ => True
    | _ => SameMem s t

/-- R29: only CALL and RET touch the stack and sp; a call changes no slot but the one at sp, and slot 15 is never
written. The slot is the spec's D8. -/
def Obligations.OnlyCallAndRetTouchTheStack : Prop :=
  ∀ (i : Instr) (s t : State), exec i s = .next t →
    t.stack[(15 : Fin 16)] = s.stack[(15 : Fin 16)] ∧
    match i with
    | .call _ => ∀ j : Fin 16, j ≠ s.sp → t.stack[j] = s.stack[j]
    | .ret => t.stack = s.stack
    | _ => SameStack s t

/-- R30, R35: no step decrements a timer or writes a key latch: DT is written by LD DT, Vx only, ST by LD ST, Vx only. -/
def Obligations.TimersAndKeysAreTheHosts : Prop :=
  ∀ (i : Instr) (s t : State), exec i s = .next t → t.key = s.key ∧
    match i with
    | .ldDtVx _ => t.st = s.st
    | .ldStVx _ => t.dt = s.dt
    | _ => SameTimers s t

/-- R33, R34: only CLS and DRW write the framebuffer or the dirty bit, and no step clears the dirty bit. -/
def Obligations.OnlyClsAndDrwTouchTheScreen : Prop :=
  ∀ (i : Instr) (s t : State), exec i s = .next t → (s.dirty = true → t.dirty = true) ∧
    match i with
    | .cls | .drw _ _ _ => True
    | _ => SameScreen s t

/-- R25: the six flag-writing instructions leave VF at exactly 0 or 1; every other instruction changes VF only where it
is the named destination. The order of result and flag is the spec's D12, that logic leaves VF alone its D13. -/
def Obligations.WhichInstructionsWriteVf : Prop :=
  ∀ (i : Instr) (s t : State), s.fault = none → exec i s = .next t → t.fault = none →
    match i with
    | .addReg _ _ | .subReg _ _ | .subnReg _ _ | .shr _ _ | .shl _ _ | .drw _ _ _ => t.reg 15 = 0 ∨ t.reg 15 = 1
    | .ldByte x _ | .addByte x _ | .ldReg x _ | .orReg x _ | .andReg x _ | .xorReg x _ | .rnd x _ | .ldVxDt x
    | .ldVxK x | .ldVxMem x => x ≠ 15 → t.reg 15 = s.reg 15
    | _ => t.reg 15 = s.reg 15

/-- The byte at an address once `n` bytes have been stored from `I[11:0]` on. -/
def Sys2Proof.Claims.byteAfterStore (s : State) (n : Nat) (stored : Nat → Byte) (a : Nat) : Byte :=
  if s.dataAddr ≤ a ∧ a < s.dataAddr + n then stored (a - s.dataAddr) else s.byte a

/-- R60, R62: a store is what the very next fetch reads. After a LD [I], Vx or a LD B that does not fault, the word of
the next step is made of the bytes just stored, where they lie at the next instruction's two addresses, and of the old
bytes elsewhere; if it decodes to j the next step runs j, and if it decodes to nothing the next step latches
DecodeFailure with it. The range check, the low 12 bits of I, the kept I and the digits' order are the spec's D16, D15, D17
and D18. -/
def Obligations.StoreIsFetchedNext : Prop :=
  ∀ (x : Reg) (s t : State) (i : Instr) (n : Nat) (stored : Nat → Byte) (w : Word),
    ((i = .ldMemVx x ∧ n = x.val + 1 ∧ ∀ r : Reg, r ≤ x → stored r.val = s.reg r) ∨
      (i = .ldB x ∧ n = 3 ∧ (stored 0).toNat = (s.reg x).toNat / 100 ∧
        (stored 1).toNat = (s.reg x).toNat / 10 % 10 ∧ (stored 2).toNat = (s.reg x).toNat % 10)) →
    s.mem.wf s.params = true → s.fault = none → exec i s = .next t → t.fault = none →
    (s.pc + 2).toNat + 1 < s.params.memSize →
    w.toNat = 256 * (byteAfterStore s n stored (s.pc + 2).toNat).toNat +
      (byteAfterStore s n stored ((s.pc + 2).toNat + 1)).toNat →
    (∀ j, decodeWord w = some j → step t = exec j t) ∧
    (decodeWord w = none → step t = .next (latched t (.decodeFailure w)))

/-- R245 (the spec's convention D30): a finished program is a fixed point of the step. -/
def Obligations.FinishedIsAFixedPoint : Prop :=
  ∀ s : State, Safety.Finished s → step s = .next s

/-! ### The invariant -/

/-- Every step from every state with legal parameters, canonical memory (log entry 20) and a screen of the right shape
leads to one: equal memories stay equal lists, no byte outside memory is ever stored (R50), the screen stays `H` rows of
`W` pixels (R221); and the parameters are the same (R38). -/
def Obligations.StepKeepsTheInvariant : Prop :=
  ∀ s t : State, Safety.Inv s → step s = .next t → Safety.Inv t ∧ t.params = s.params

/-- Every host event keeps it too, and so does every finite sequence of events (R22), a rejected load among them. -/
def Obligations.EventsKeepTheInvariant : Prop :=
  ∀ (es : List HostEvent) (s t : State) (rs : List Reply), Safety.Inv s → handleAll es s = .next (t, rs) →
    Safety.Inv t ∧ t.params = s.params

/-- The invariant holds after reset, of every core with legal parameters (R5) and of the document's. -/
def Obligations.ResetMeetsTheInvariant : Prop :=
  (∀ p : Config.Params, validParams p = true → Safety.Inv (State.resetOf p)) ∧ Safety.Inv State.reset

/-! ### Encoding (30_encoding.md) -/

/-- R73, R75: decoding the word of a well-formed instruction gives it back, with every operand at every value. -/
def Obligations.DecodeOfEncode : Prop :=
  ∀ i : Instr, i.WellFormed → decodeWord (encode i) = some i

/-- R73, R75: a word that decodes is the word of the instruction it decodes to: no bit is dropped; and what it
decodes to is well formed. -/
def Obligations.EncodeOfDecode : Prop :=
  ∀ (w : Word) (i : Instr), decodeWord w = some i → encode i = w ∧ i.WellFormed

/-- R75: the table has 35 rows; the decoder of R73 and the first matching row of the table agree on all 65536 words; a
word selects two rows only where it is in family 0, one of them is SYS, and the other, which stands first, is CLS or
RET. -/
def Obligations.DecoderIsTheTable : Prop :=
  opcodeTable.length = 35 ∧ ∀ w : Word, decodeWord w = decodeByTable w ∧
    ∀ i j : Fin opcodeTable.length, i < j → w &&& opcodeTable[i].mask = opcodeTable[i].pattern →
      w &&& opcodeTable[j].mask = opcodeTable[j].pattern → (w = 0x00E0 ∨ w = 0x00EE) ∧ opcodeTable[j].pattern = 0x0000

/-- R76 to R81: exactly these words are illegal. -/
def Obligations.IllegalWords : Prop :=
  ∀ w : Word, decodeWord w = none ↔
    (fieldF w = 0x5 ∧ fieldN w ≠ 0) ∨ (fieldF w = 0x9 ∧ fieldN w ≠ 0) ∨
    (fieldF w = 0x8 ∧ fieldN w ∈ [0x8, 0x9, 0xA, 0xB, 0xC, 0xD, 0xF]) ∨
    (fieldF w = 0xE ∧ fieldKK w ∉ [0x9E, 0xA1]) ∨
    (fieldF w = 0xF ∧ fieldKK w ∉ [0x07, 0x0A, 0x15, 0x18, 0x1E, 0x29, 0x33, 0x55, 0x65])

/-- Words written out from R75's patterns, one of each family (95_test_vectors.md section 2.1). -/
def Obligations.SampleWordsDecode : Prop :=
  decodeWord 0x00E1 = some (.sys 0x0E1) ∧ decodeWord 0x2200 = some (.call 0x200) ∧
  decodeWord 0x3A7F = some (.seByte 10 0x7F) ∧ decodeWord 0x8AB7 = some (.subnReg 10 11) ∧
  decodeWord 0xB123 = some (.jpV0 0x123) ∧ decodeWord 0xC3F0 = some (.rnd 3 0xF0) ∧
  decodeWord 0xD125 = some (.drw 1 2 5) ∧ decodeWord 0xE19E = some (.skp 1) ∧ decodeWord 0xF11E = some (.addI 1) ∧
  decodeWord 0xF175 = none

/-! ### Reset and load (70_reset_and_hazards.md) -/

/-- R5, R27, R29, R32, R34, R50: what the document states of the fresh core: pc, sp, dirty and the place of the font, byte k of
FONT at address k, for every value of the parameters; and the document's own MEM_SIZE, W and H, with glyph A at 5 * 10.
The bytes of the document's FONT are log entry 5; a core with a MEM_SIZE below 0x200 is the model's choice (log entry 21). -/
def Obligations.ResetStatedValues : Prop :=
  (∀ p : Config.Params, (State.resetOf p).pc = 0x200 ∧ (State.resetOf p).sp = 0 ∧ (State.resetOf p).dirty = true ∧
    ∀ k : Fin Config.fontBytes, (State.resetOf p).byte k.val = p.font[k]) ∧
  State.reset = State.resetOf State.reset.params ∧ State.reset.params.memSize = 0xFFF ∧
  State.reset.params.width = 64 ∧ State.reset.params.height = 32 ∧
  State.reset.bytes (5 * 10) 5 = [0xF0, 0x90, 0xF0, 0x90, 0x90]

/-- R40, R230, what they mark as the spec's own choice, for every value of the parameters: zero registers, timers, slots
and memory above the font, Off pixels (D9; log entry 6), Released keys (D24; log entry 7), and a cleared fault latch (D5,
D33; log entry 6); a core with a MEM_SIZE below 0x200 is the model's choice (log entry 21). -/
def Obligations.ResetChosenValues : Prop :=
  ∀ p : Config.Params, (∀ r, (State.resetOf p).reg r = 0) ∧ (State.resetOf p).i = 0 ∧
    (∀ j : Fin 16, (State.resetOf p).stack[j] = 0) ∧ (State.resetOf p).dt = 0 ∧ (State.resetOf p).st = 0 ∧
    (∀ a, 80 ≤ a → (State.resetOf p).byte a = 0) ∧ (∀ row col, (State.resetOf p).fb.pixel row col = false) ∧
    (∀ k : Fin 16, (State.resetOf p).key[k] = false) ∧ (State.resetOf p).fault = none

/-- R230 (its zeros and cleared latch are D9, D24, D33; log entries 6, 7): a program of at most `MEM_SIZE - 0x200` bytes
loads from any state, the byte j at 0x200 + j; everything else is as after reset of a core with the same parameters, but
for the model's count of free values. For a MEM_SIZE below 0x200 the bound 0 is the model's choice (log entry 21). -/
def Obligations.LoadPlacesTheProgram : Prop :=
  ∀ (p : List Byte) (s : State), p.length ≤ s.params.memSize - 0x200 →
    ∃ t, handle (.resetLoad p) s = .next (t, .result none) ∧
      (∀ j (h : j < p.length), t.byte (0x200 + j) = p[j]) ∧
      (∀ a, a < 0x200 ∨ 0x200 + p.length ≤ a → t.byte a = (State.resetOf s.params).byte a) ∧
      t = { State.resetOf s.params with mem := t.mem, draws := s.draws }

/-- R201: a program of more than `MEM_SIZE - 0x200` bytes, 3583 for the document's memory, is rejected with its length,
one of exactly that many is not, and no step raises ProgramTooLong. That the rejected load latches the record, so that the
core is halted, is R231 (the spec's D33). For a MEM_SIZE below 0x200 the bound 0 is the model's choice (log entry 21). -/
def Obligations.TooLongProgramsAreRejected : Prop :=
  (∀ (p : List Byte) (s : State), p.length > s.params.memSize - 0x200 →
    ∃ t, handle (.resetLoad p) s = .next (t, .result (some (.programTooLong p.length))) ∧
      t.fault = some (.programTooLong p.length)) ∧
  (∀ (p : List Byte) (s : State), p.length = s.params.memSize - 0x200 →
    ∃ t, handle (.resetLoad p) s = .next (t, .result none)) ∧
  State.reset.params.memSize - 0x200 = 3583 ∧
  (∀ (s t : State) (n : Nat), s.fault = none → step s = .next t → t.fault ≠ some (.programTooLong n))

/-! ### Host events (60_exceptions.md) -/

/-- R216: a tick takes n from both timers, never below 0, in one event, also while halted; nothing else changes. -/
def Obligations.TickSaturates : Prop :=
  ∀ (n : Nat) (s : State), ∃ t, handle (.tick n) s = .next (t, .nothing) ∧
    t.dt.toNat = max ((s.dt.toNat : Int) - n) 0 ∧ t.st.toNat = max ((s.st.toNat : Int) - n) 0 ∧
    t = { s with dt := t.dt, st := t.st }

/-- R216, the spec's own inference: `tick(n)` is n successive `tick(1)`. -/
def Obligations.TickIsRepeatedTickOne : Prop :=
  ∀ (n : Nat) (s : State), ∃ t, handle (.tick n) s = .next (t, .nothing) ∧
    handleAll (List.replicate n (.tick 1)) s = .next (t, List.replicate n .nothing)

/-- R218: a key event sets its latch and no other; an index above 15 changes nothing. -/
def Obligations.KeyEventSetsOneLatch : Prop :=
  ∀ (k : Nat) (st : KeyStatus) (s : State), ∃ t, handle (.keyEvent k st) s = .next (t, .nothing) ∧
    (∀ j : Fin 16, t.key[j] = if j.val = k then decide (st = .pressed) else s.key[j]) ∧ t = { s with key := t.key }

/-- R220: the snapshot is the frame where dirty is set, which it clears, and nothing otherwise. -/
def Obligations.SnapshotOncePerDirty : Prop :=
  ∀ s : State,
    (s.dirty = true → ∃ t, handle .getSnapshot s = .next (t, .snapshot (some s.fb)) ∧ t = { s with dirty := false }) ∧
    (s.dirty = false → handle .getSnapshot s = .next (s, .snapshot none))

/-- R21, R37, R100, R108, R211: the event `step(rnd)` is the step, with the byte given to it and gone after it, and answers
the latch's value after it; a RND in it uses the host's byte; where no RND is executed the event does the same for every
byte; `read_status` answers the latch's value and changes nothing. That the byte travels in `rndIn` is the model's form (log
entry 1). -/
def Obligations.StepEventUsesItsByte : Prop :=
  ∀ (b : Byte) (s : State),
    (∃ t, step { s with rndIn := some b } = .next t ∧
      handle (.step b) s = .next ({ t with rndIn := none }, .result t.fault)) ∧
    (∀ w x kk, s.fault = none → s.pc.toNat + 1 < s.params.memSize → WordAtPc s w → decodeWord w = some (.rnd x kk) →
      ∃ t, handle (.step b) s = .next (t, .result none) ∧ t.reg x = b &&& kk) ∧
    ((s.fault = none → s.pc.toNat + 1 < s.params.memSize → ∀ w, WordAtPc s w → ∀ x kk, decodeWord w ≠ some (.rnd x kk)) →
      ∀ c : Byte, handle (.step b) s = handle (.step c) s) ∧
    handle .readStatus s = .next (s, .status s.fault)

/-- R107, R209 (the spec's D5; log entry 13): while a fault is latched, no sequence of events without a `reset_load`
changes the latch, a register, I, pc, the stack, memory or a pixel. -/
def Obligations.OnlyResetLoadLeavesTheFault : Prop :=
  ∀ (es : List HostEvent) (s t : State) (rs : List Reply) (r : Fault), s.fault = some r →
    (∀ e ∈ es, Safety.isResetLoad e = false) → handleAll es s = .next (t, rs) →
    t.fault = some r ∧ t.v = s.v ∧ t.i = s.i ∧ t.pc = s.pc ∧ SameStack s t ∧ t.mem = s.mem ∧ t.fb = s.fb ∧
    t.params = s.params

end
end

