-- ==== Sys2Proof/Laws/Decode.lean ====
section
/-!
SUPPORT. The fields of the words the encoder builds, and the bytes of a word.
-/
namespace Sys2Proof

@[simp] theorem toFin_regNibble (x : Reg) : (regNibble x).toFin = x := rfl

/-! ### The bits of each format -/

theorem getLsbD_wordNNN (t : Nibble) (nnn : Addr) (i : Nat) :
    (wordNNN t nnn).getLsbD i = if i < 12 then nnn.getLsbD i else t.getLsbD (i - 12) :=
  BitVec.getLsbD_append

theorem getLsbD_wordXKK (t : Nibble) (x : Reg) (kk : Byte) (i : Nat) :
    (wordXKK t x kk).getLsbD i = if i < 8 then kk.getLsbD i
      else if i - 8 < 4 then (regNibble x).getLsbD (i - 8) else t.getLsbD (i - 8 - 4) := by
  have h1 : (wordXKK t x kk).getLsbD i = _ := BitVec.getLsbD_append (x := t ++ regNibble x) (y := kk)
  rw [h1, BitVec.getLsbD_append]

theorem getLsbD_wordXYN (t : Nibble) (x y : Reg) (n : Nibble) (i : Nat) :
    (wordXYN t x y n).getLsbD i = if i < 4 then n.getLsbD i
      else if i - 4 < 4 then (regNibble y).getLsbD (i - 4)
      else if i - 4 - 4 < 4 then (regNibble x).getLsbD (i - 4 - 4) else t.getLsbD (i - 4 - 4 - 4) := by
  have h1 : (wordXYN t x y n).getLsbD i = _ :=
    BitVec.getLsbD_append (x := t ++ regNibble x ++ regNibble y) (y := n)
  rw [h1, BitVec.getLsbD_append, BitVec.getLsbD_append]

/-! ### Format NNN -/

@[simp] theorem fieldF_wordNNN (t : Nibble) (nnn : Addr) : fieldF (wordNNN t nnn) = t := by
  unfold fieldF; ext i hi; simp [getLsbD_wordNNN, BitVec.getLsbD_eq_getElem, hi]

@[simp] theorem fieldNNN_wordNNN (t : Nibble) (nnn : Addr) : fieldNNN (wordNNN t nnn) = nnn := by
  unfold fieldNNN; ext i hi; simp [getLsbD_wordNNN, BitVec.getLsbD_eq_getElem, hi]

/-! ### Format XKK -/

@[simp] theorem fieldF_wordXKK (t : Nibble) (x : Reg) (kk : Byte) : fieldF (wordXKK t x kk) = t := by
  unfold fieldF; ext i hi
  simp [getLsbD_wordXKK, BitVec.getLsbD_eq_getElem, hi, show ¬ 12 + i < 8 by omega,
    show ¬ 12 + i - 8 < 4 by omega, show 12 + i - 8 - 4 = i by omega]

@[simp] theorem fieldX_wordXKK (t : Nibble) (x : Reg) (kk : Byte) : fieldX (wordXKK t x kk) = x := by
  have : (wordXKK t x kk).extractLsb' 8 4 = regNibble x := by
    ext i hi; simp [getLsbD_wordXKK, BitVec.getLsbD_eq_getElem, hi]
  simp [fieldX, this]

@[simp] theorem fieldKK_wordXKK (t : Nibble) (x : Reg) (kk : Byte) : fieldKK (wordXKK t x kk) = kk := by
  unfold fieldKK; ext i hi; simp [getLsbD_wordXKK, BitVec.getLsbD_eq_getElem, hi]

/-! ### Format XYN -/

@[simp] theorem fieldF_wordXYN (t : Nibble) (x y : Reg) (n : Nibble) : fieldF (wordXYN t x y n) = t := by
  unfold fieldF; ext i hi
  simp [getLsbD_wordXYN, BitVec.getLsbD_eq_getElem, hi, show ¬ 12 + i < 4 by omega,
    show ¬ 12 + i - 4 < 4 by omega, show ¬ 12 + i - 4 - 4 < 4 by omega, show 12 + i - 4 - 4 - 4 = i by omega]

@[simp] theorem fieldX_wordXYN (t : Nibble) (x y : Reg) (n : Nibble) : fieldX (wordXYN t x y n) = x := by
  have : (wordXYN t x y n).extractLsb' 8 4 = regNibble x := by
    ext i hi
    simp [getLsbD_wordXYN, BitVec.getLsbD_eq_getElem, hi, show ¬ 8 + i < 4 by omega,
      show ¬ 8 + i - 4 < 4 by omega, show 8 + i - 4 - 4 = i by omega]
  simp [fieldX, this]

@[simp] theorem fieldY_wordXYN (t : Nibble) (x y : Reg) (n : Nibble) : fieldY (wordXYN t x y n) = y := by
  have : (wordXYN t x y n).extractLsb' 4 4 = regNibble y := by
    ext i hi; simp [getLsbD_wordXYN, BitVec.getLsbD_eq_getElem, hi]
  simp [fieldY, this]

@[simp] theorem fieldN_wordXYN (t : Nibble) (x y : Reg) (n : Nibble) : fieldN (wordXYN t x y n) = n := by
  unfold fieldN; ext i hi; simp [getLsbD_wordXYN, BitVec.getLsbD_eq_getElem, hi]

/-! ### Every word is built from its fields -/

theorem wordNNN_fields (op : Word) : wordNNN (fieldF op) (fieldNNN op) = op := by
  apply BitVec.eq_of_getLsbD_eq; intro i hi
  simp only [getLsbD_wordNNN, fieldF, fieldNNN, BitVec.getLsbD_extractLsb']
  split
  · simp [*]
  · simp [show i - 12 < 4 by omega, show 12 + (i - 12) = i by omega]

theorem wordXKK_fields (op : Word) : wordXKK (fieldF op) (fieldX op) (fieldKK op) = op := by
  have hx : regNibble (fieldX op) = op.extractLsb' 8 4 := rfl
  apply BitVec.eq_of_getLsbD_eq; intro i hi
  simp only [getLsbD_wordXKK, hx, fieldF, fieldKK, BitVec.getLsbD_extractLsb']
  split
  · simp [*]
  · split
    · simp [*, show 8 + (i - 8) = i by omega]
    · simp [show i - 8 - 4 < 4 by omega, show 12 + (i - 8 - 4) = i by omega]

theorem wordXYN_fields (op : Word) : wordXYN (fieldF op) (fieldX op) (fieldY op) (fieldN op) = op := by
  have hx : regNibble (fieldX op) = op.extractLsb' 8 4 := rfl
  have hy : regNibble (fieldY op) = op.extractLsb' 4 4 := rfl
  apply BitVec.eq_of_getLsbD_eq; intro i hi
  simp only [getLsbD_wordXYN, hx, hy, fieldF, fieldN, BitVec.getLsbD_extractLsb']
  split
  · simp [*]
  · split
    · simp [*, show 4 + (i - 4) = i by omega]
    · split
      · simp [*, show 8 + (i - 4 - 4) = i by omega]
      · simp [show i - 4 - 4 - 4 < 4 by omega, show 12 + (i - 4 - 4 - 4) = i by omega]

/-! ### Bytes -/

theorem getLsbD_wordOfBytes (hi lo : Byte) (i : Nat) :
    (wordOfBytes hi lo).getLsbD i = if i < 8 then lo.getLsbD i else hi.getLsbD (i - 8) :=
  BitVec.getLsbD_append

/-- The word of two bytes is big-endian: the first counts 256 times (R53). -/
theorem toNat_wordOfBytes (hi lo : Byte) : (wordOfBytes hi lo).toNat = 256 * hi.toNat + lo.toNat := by
  have := lo.isLt
  rw [wordOfBytes, BitVec.toNat_append, ← Nat.shiftLeft_add_eq_or_of_lt this, Nat.shiftLeft_eq]
  omega

/-- A word laid out as two bytes and read back big-endian is the word (R53). -/
@[simp] theorem wordOfBytes_bytes (op : Word) : wordOfBytes (hiByte op) (loByte op) = op := by
  apply BitVec.eq_of_getLsbD_eq; intro i hi
  simp only [getLsbD_wordOfBytes, hiByte, loByte, BitVec.getLsbD_extractLsb']
  split
  · simp [*]
  · simp [show i - 8 < 8 by omega, show 8 + (i - 8) = i by omega]

/-- `decodeTableWord` is `decodeWord` of the numbered word. -/
theorem decodeTableWord_eq (nbits w : Nat) : decodeTableWord nbits w = decodeWord (tableWord nbits w) := by
  unfold decodeTableWord decodeBytes
  simp only [wordOfBytes_bytes]
  cases decodeWord (tableWord nbits w) <;> rfl

end Sys2Proof
end

