-- ==== Sys2Proof/Laws/Draw.lean ====
section
/-!
SUPPORT. What drawing a sprite does to every pixel, to the screen's shape and to the collision mark (44_draw.md rules
R160 to R162).
-/
namespace Sys2Proof.Machine

variable {p : Config.Params}

/-! ### The grid -/

theorem Frame.wf_iff {f : Frame} : f.wf p = true ↔ f.length = p.height ∧ ∀ line ∈ f, line.length = p.width := by
  simp [Frame.wf]

theorem Frame.wf_off : (Frame.off p).wf p = true := by
  rw [Frame.wf_iff]; simp [Frame.off]

theorem Frame.pixel_off (row col : Nat) : (Frame.off p).pixel row col = false := by
  simp only [Frame.pixel, Frame.off, List.getD_eq_getElem?_getD, List.getElem?_replicate]
  split <;> simp [List.getElem?_replicate]
  split <;> rfl

/-- A flip keeps the shape. -/
theorem Frame.wf_flip {f : Frame} (hf : f.wf p = true) (row col : Nat) : (f.flip row col).wf p = true := by
  rw [Frame.wf_iff] at hf ⊢
  refine ⟨by simp [Frame.flip, hf.1], fun line hl => ?_⟩
  obtain ⟨k, hk, rfl⟩ := List.mem_iff_getElem.1 hl
  simp only [Frame.flip, List.getElem_modify]
  split
  · rw [List.length_modify]; exact hf.2 _ (List.getElem_mem _)
  · exact hf.2 _ (List.getElem_mem _)

/-- One pixel after a flip inside the grid. -/
theorem Frame.pixel_flip {f : Frame} (hf : f.wf p = true) {row col : Nat} (hr : row < p.height) (hc : col < p.width)
    (row' col' : Nat) :
    (f.flip row col).pixel row' col' = (if row' = row ∧ col' = col then !f.pixel row col else f.pixel row' col') := by
  rw [Frame.wf_iff] at hf
  have hr' : row < f.length := by omega
  have hc' : col < f[row].length := by rw [hf.2 _ (List.getElem_mem _)]; exact hc
  simp only [Frame.pixel, Frame.flip, List.getD_eq_getElem?_getD, List.getElem?_modify]
  by_cases h1 : row' = row
  · subst h1
    by_cases h2 : col' = col
    · subst h2; simp [List.getElem?_eq_getElem hr', List.getElem?_eq_getElem hc']
    · simp [List.getElem?_eq_getElem hr', h2, Ne.symm h2]
  · simp [h1, Ne.symm h1]

/-- Two grids of the right shape with the same pixels are the same. -/
theorem Frame.ext {f g : Frame} (hf : f.wf p = true) (hg : g.wf p = true)
    (h : ∀ row < p.height, ∀ col < p.width, f.pixel row col = g.pixel row col) : f = g := by
  rw [Frame.wf_iff] at hf hg
  refine List.ext_getElem (by omega) fun row h1 h2 => ?_
  have w1 := hf.2 _ (List.getElem_mem h1)
  have w2 := hg.2 _ (List.getElem_mem h2)
  refine List.ext_getElem (by omega) fun col h3 h4 => ?_
  have := h row (by omega) col (by omega)
  simpa [Frame.pixel, List.getD_eq_getElem?_getD, List.getElem?_eq_getElem h1, List.getElem?_eq_getElem h2,
    List.getElem?_eq_getElem h3, List.getElem?_eq_getElem h4] using this

/-! ### Flipping a list of pixels -/

/-- Flipping each pixel of a list without repeats once. -/
theorem foldl_flipPixel (ps : List (Nat × Nat)) (hn : ps.Nodup) (hin : ∀ q ∈ ps, q.1 < p.height ∧ q.2 < p.width)
    (c : Canvas) (hc : c.fb.wf p = true) :
    (ps.foldl flipPixel c).fb.wf p = true ∧
    (∀ row col, (ps.foldl flipPixel c).fb.pixel row col =
      (if (row, col) ∈ ps then !c.fb.pixel row col else c.fb.pixel row col)) ∧
    ((ps.foldl flipPixel c).collided = true ↔
      c.collided = true ∨ ∃ row col, (row, col) ∈ ps ∧ c.fb.pixel row col = true) := by
  induction ps generalizing c with
  | nil => simp [hc]
  | cons q ps ih =>
    obtain ⟨qr, qc⟩ := q
    obtain ⟨hq, hn'⟩ := List.nodup_cons.1 hn
    obtain ⟨hr, hcol⟩ := hin (qr, qc) (by simp)
    have hpix := Frame.pixel_flip hc hr hcol
    obtain ⟨h0, h1, h2⟩ := ih hn' (fun q hm => hin q (List.mem_cons_of_mem _ hm)) (flipPixel c (qr, qc))
      (Frame.wf_flip hc _ _)
    refine ⟨h0, ?_, ?_⟩
    · intro row col
      rw [List.foldl_cons, h1]
      simp only [flipPixel, hpix, List.mem_cons, Prod.mk.injEq]
      by_cases h : row = qr ∧ col = qc
      · obtain ⟨rfl, rfl⟩ := h; simp [hq]
      · simp [h]
    · rw [List.foldl_cons, h2]
      simp only [flipPixel, hpix, Bool.or_eq_true]
      constructor
      · rintro ((h | h) | ⟨row, col, hm, h⟩)
        · exact .inl h
        · exact .inr ⟨qr, qc, by simp, h⟩
        · have hne : ¬ (row = qr ∧ col = qc) := by rintro ⟨rfl, rfl⟩; exact hq hm
          rw [if_neg hne] at h
          exact .inr ⟨row, col, List.mem_cons_of_mem _ hm, h⟩
      · rintro (h | ⟨row, col, hm, h⟩)
        · exact .inl (.inl h)
        · rcases List.mem_cons.1 hm with e | hm'
          · obtain ⟨rfl, rfl⟩ := Prod.mk.inj e; exact .inl (.inr h)
          · have hne : ¬ (row = qr ∧ col = qc) := by rintro ⟨rfl, rfl⟩; exact hq hm'
            exact .inr ⟨row, col, hm', by rw [if_neg hne]; exact h⟩

/-! ### The pixels of a sprite -/

/-- The column of sprite column k (R161). -/
theorem columnTarget_eq_some {mode : Config.XOverflow} {x0 k : Nat} (col : Nat) :
    columnTarget p mode x0 k = some col ↔
      (x0 + k < p.width ∧ x0 + k = col) ∨ (p.width ≤ x0 + k ∧ mode = .wrap ∧ x0 + k = col + p.width) := by
  unfold columnTarget
  split
  · simp only [Option.some.injEq]; omega
  · cases mode
    · simp only [Option.some.injEq, true_and]; omega
    · simp only [reduceCtorEq, false_and, and_false, or_false, false_iff]; omega

theorem mem_rowColumns {mode : Config.XOverflow} {x0 : Nat} {b : Byte} {col : Nat} :
    col ∈ rowColumns p mode x0 b ↔ ∃ k < 8, spriteBit b k = true ∧ columnTarget p mode x0 k = some col := by
  simp [rowColumns, List.mem_filterMap]

/-- The eight columns of a sprite row are distinct where `W` is at least 8 (R5, R162). -/
theorem nodup_rowColumns {mode : Config.XOverflow} {x0 : Nat} (hp : validParams p = true) (b : Byte) :
    (rowColumns p mode x0 b).Nodup := by
  simp only [validParams, Bool.and_eq_true, decide_eq_true_eq] at hp
  refine List.pairwise_filterMap.2 ((List.nodup_range (n := 8)).imp_of_mem fun {k k'} hk hk' hne => ?_)
  intro c hc c' hc' e
  subst e
  simp only [List.mem_range] at hk hk'
  replace hc : columnTarget p mode x0 k = some c := by split at hc <;> simp_all
  replace hc' : columnTarget p mode x0 k' = some c := by split at hc' <;> simp_all
  rw [columnTarget_eq_some] at hc hc'
  omega

/-- The pixels a sprite flips: sprite row r, sprite column k, a 1 bit, at its place on the screen. -/
theorem mem_spritePixels {mode : Config.XOverflow} {x0 y0 r0 : Nat} {bytes : List Byte} {row col : Nat} :
    (row, col) ∈ spritePixels p mode x0 y0 r0 bytes ↔
      ∃ r k, ∃ h : r < bytes.length, y0 + (r0 + r) = row ∧ row < p.height ∧ k < 8 ∧ spriteBit bytes[r] k = true ∧
        columnTarget p mode x0 k = some col := by
  induction bytes generalizing r0 with
  | nil => simp [spritePixels]
  | cons b rest ih =>
    rw [spritePixels, List.mem_append, ih]
    constructor
    · rintro (h | ⟨r, k, hr, hrow, hk⟩)
      · unfold rowTarget at h
        split at h
        · next row' hrow' =>
          split at hrow'
          · simp only [Option.some.injEq] at hrow'
            simp only [List.mem_map, Prod.mk.injEq] at h
            obtain ⟨c, hc, hr, rfl⟩ := h
            obtain ⟨k, hk, hb, ht⟩ := mem_rowColumns.1 hc
            exact ⟨0, k, by simp, by omega, by omega, hk, hb, ht⟩
          · cases hrow'
        · simp at h
      · exact ⟨r + 1, k, by simp; omega, by omega, by simpa using hk⟩
    · rintro ⟨r, k, hr, hrow, hlt, hk, hb, ht⟩
      cases r with
      | zero =>
        left
        have hrt : rowTarget p y0 r0 = some row := by
          unfold rowTarget; rw [if_pos (by omega)]; simp; omega
        simp only [hrt, List.mem_map, Prod.mk.injEq, true_and, exists_eq_right]
        exact mem_rowColumns.2 ⟨k, hk, hb, ht⟩
      | succ r => exact .inr ⟨r, k, by simp at hr; omega, by omega, hlt, hk, by simpa using hb, ht⟩

/-- They are all on the screen (R161). -/
theorem spritePixels_inside {mode : Config.XOverflow} {x0 : Nat} (hp : validParams p = true) (hx : x0 < p.width)
    {y0 r0 : Nat} {bytes : List Byte} {q : Nat × Nat} (h : q ∈ spritePixels p mode x0 y0 r0 bytes) :
    q.1 < p.height ∧ q.2 < p.width := by
  obtain ⟨row, col⟩ := q
  obtain ⟨r, k, -, -, hrow, hk, -, ht⟩ := mem_spritePixels.1 h
  rw [columnTarget_eq_some] at ht
  simp only [validParams, Bool.and_eq_true, decide_eq_true_eq] at hp
  exact ⟨hrow, by simp only; omega⟩

theorem nodup_spritePixels {mode : Config.XOverflow} {x0 : Nat} (hp : validParams p = true)
    (y0 r0 : Nat) (bytes : List Byte) : (spritePixels p mode x0 y0 r0 bytes).Nodup := by
  induction bytes generalizing r0 with
  | nil => exact List.nodup_nil
  | cons b rest ih =>
    rw [spritePixels]
    refine List.nodup_append.2 ⟨?_, ih (r0 + 1), ?_⟩
    · split
      · exact (nodup_rowColumns hp b).map fun c c' e => (Prod.mk.inj e).2
      · exact List.nodup_nil
    · rintro ⟨row, col⟩ h1 ⟨row', col'⟩ h2 e
      obtain ⟨rfl, rfl⟩ := Prod.mk.inj e
      obtain ⟨r, k, hr, hrow, -⟩ := mem_spritePixels.1 h2
      unfold rowTarget at h1
      split at h1
      · next row' hrow' =>
        split at hrow'
        · simp only [Option.some.injEq] at hrow'
          simp only [List.mem_map, Prod.mk.injEq] at h1
          obtain ⟨c, -, e, -⟩ := h1
          omega
        · cases hrow'
      · simp at h1

/-- Everything a sprite drawing does: the shape stays, each pixel is flipped exactly where a 1 bit of the sprite lies on
it, and the mark says whether one of those was On. -/
theorem drawSprite_spec (hp : validParams p = true) (mode : Config.XOverflow) {f : Frame} (hf : f.wf p = true)
    (xv yv : Byte) (bytes : List Byte) :
    (drawSprite p mode f xv yv bytes).fb.wf p = true ∧
    (∀ row col, (drawSprite p mode f xv yv bytes).fb.pixel row col =
      (if (row, col) ∈ spritePixels p mode (xv.toNat % p.width) (yv.toNat % p.height) 0 bytes
        then !f.pixel row col else f.pixel row col)) ∧
    ((drawSprite p mode f xv yv bytes).collided = true ↔
      ∃ row col, (row, col) ∈ spritePixels p mode (xv.toNat % p.width) (yv.toNat % p.height) 0 bytes ∧
        f.pixel row col = true) := by
  have hx : xv.toNat % p.width < p.width := by
    simp only [validParams, Bool.and_eq_true, decide_eq_true_eq] at hp
    exact Nat.mod_lt _ (by omega)
  have := foldl_flipPixel _ (nodup_spritePixels (mode := mode) hp (yv.toNat % p.height) 0 bytes)
    (fun q => spritePixels_inside hp hx) ⟨f, false⟩ hf
  simpa [drawSprite] using this

end Sys2Proof.Machine
end

