-- ==== Sys2Proof/Laws/Memory.lean ====
section
/-!
SUPPORT. The laws of the byte memory: a read after a write, the frame of a write, and that every memory operation
keeps the canonical form.
-/
namespace Sys2Proof.Machine

variable {p : Config.Params}

/-- The frame of `put` holds of any list, canonical or not. -/
theorem Memory.read_put_of_ne (m : Memory) (a : Nat) (b : Byte) {c : Nat} (h : c ≠ a) :
    (m.put p a b).read p c = m.read p c := by
  induction m with
  | nil => unfold Memory.put; split <;> simp [Memory.read, h]
  | cons e rest ih =>
    obtain ⟨k, d⟩ := e
    simp only [Memory.put]
    split
    · split <;> simp [Memory.read, h]
    · split
      · next hk => subst hk; split <;> simp [Memory.read, h]
      · simp [Memory.read, ih]

/-- Below every listed address of a canonical list, reads give reset bytes. -/
theorem Memory.read_eq_reset_of_lt {m : Memory} {lo a : Nat} (hw : m.wfFrom p lo = true) (h : a < lo) :
    m.read p a = resetByte p a := by
  induction m generalizing lo with
  | nil => rfl
  | cons e rest ih =>
    obtain ⟨k, d⟩ := e
    simp only [Memory.wfFrom, Bool.and_eq_true, decide_eq_true_eq, bne_iff_ne] at hw
    have : a ≠ k := by omega
    simp only [Memory.read, this, if_false]
    exact ih hw.2 (by omega)

theorem Memory.read_put_self {m : Memory} {lo : Nat} (hw : m.wfFrom p lo = true) (a : Nat) (b : Byte) :
    (m.put p a b).read p a = b := by
  induction m generalizing lo with
  | nil => unfold Memory.put; split <;> simp_all [Memory.read]
  | cons e rest ih =>
    obtain ⟨k, d⟩ := e
    simp only [Memory.wfFrom, Bool.and_eq_true, decide_eq_true_eq, bne_iff_ne] at hw
    simp only [Memory.put]
    split
    · next hk =>
      split
      · next hb =>
        have : a ≠ k := by omega
        simp [Memory.read, this, read_eq_reset_of_lt hw.2 (show a < k + 1 by omega), hb]
      · simp [Memory.read]
    · split
      · next hk =>
        subst hk
        split
        · next hb => rw [read_eq_reset_of_lt hw.2 (by omega), hb]
        · simp [Memory.read]
      · next hk => simp [Memory.read, hk, ih hw.2]

theorem Memory.wfFrom_mono {m : Memory} {lo lo' : Nat} (hw : m.wfFrom p lo = true) (h : lo' ≤ lo) :
    m.wfFrom p lo' = true := by
  cases m with
  | nil => rfl
  | cons e rest =>
    obtain ⟨k, d⟩ := e
    simp only [Memory.wfFrom, Bool.and_eq_true, decide_eq_true_eq, bne_iff_ne] at hw ⊢
    exact ⟨⟨⟨by omega, hw.1.1.2⟩, hw.1.2⟩, hw.2⟩

theorem Memory.wfFrom_put {m : Memory} {lo a : Nat} (b : Byte) (hw : m.wfFrom p lo = true) (h : lo ≤ a)
    (ha : a < p.memSize) : (m.put p a b).wfFrom p lo = true := by
  induction m generalizing lo with
  | nil => unfold Memory.put; split <;> simp_all [Memory.wfFrom]
  | cons e rest ih =>
    obtain ⟨k, d⟩ := e
    have hw' := hw
    simp only [Memory.wfFrom, Bool.and_eq_true, decide_eq_true_eq, bne_iff_ne] at hw
    simp only [Memory.put]
    split
    · next hk =>
      split
      · exact hw'
      · next hb =>
        simp only [Memory.wfFrom, Bool.and_eq_true, decide_eq_true_eq, bne_iff_ne]
        exact ⟨⟨⟨h, ha⟩, hb⟩, ⟨⟨by omega, hw.1.1.2⟩, hw.1.2⟩, hw.2⟩
    · split
      · next hk =>
        subst hk
        split
        · exact wfFrom_mono hw.2 (by omega)
        · next hb =>
          simp only [Memory.wfFrom, Bool.and_eq_true, decide_eq_true_eq, bne_iff_ne]
          exact ⟨⟨⟨h, ha⟩, hb⟩, hw.2⟩
      · simp only [Memory.wfFrom, Bool.and_eq_true, decide_eq_true_eq, bne_iff_ne]
        exact ⟨hw.1, ih hw.2 (by omega)⟩

/-! ### write -/

/-- A write keeps the canonical form. -/
theorem Memory.wf_write {m : Memory} (hw : m.wf p = true) (a : Nat) (b : Byte) : (m.write p a b).wf p = true := by
  unfold Memory.write
  split
  · exact wfFrom_put b hw (Nat.zero_le _) ‹_›
  · exact hw

/-- A write leaves every other byte alone, in any memory. -/
theorem Memory.read_write_of_ne (m : Memory) (a : Nat) (b : Byte) {c : Nat} (h : c ≠ a) :
    (m.write p a b).read p c = m.read p c := by
  unfold Memory.write
  split
  · exact read_put_of_ne m a b h
  · rfl

/-- A read after a write to the same byte of memory gives the byte written. -/
theorem Memory.read_write_self {m : Memory} (hw : m.wf p = true) {a : Nat} (b : Byte) (ha : a < p.memSize) :
    (m.write p a b).read p a = b := by
  unfold Memory.write
  rw [if_pos ha]
  exact read_put_self hw a b

/-! ### writeBytes, readBytes -/

theorem Memory.wf_writeBytes {m : Memory} (hw : m.wf p = true) (a : Nat) (bs : List Byte) :
    (m.writeBytes p a bs).wf p = true := by
  induction bs generalizing m a with
  | nil => exact hw
  | cons b bs ih => exact ih (wf_write hw a b) (a + 1)

/-- The frame of a multi-byte store, in any memory. -/
theorem Memory.read_writeBytes_of_outside (m : Memory) (a : Nat) (bs : List Byte) {c : Nat}
    (h : c < a ∨ a + bs.length ≤ c) : (m.writeBytes p a bs).read p c = m.read p c := by
  induction bs generalizing m a with
  | nil => rfl
  | cons b bs ih =>
    simp only [List.length_cons] at h
    rw [Memory.writeBytes, ih _ _ (by omega), read_write_of_ne _ _ _ (by omega)]

/-- The stored bytes of a multi-byte store that stays in memory. -/
theorem Memory.read_writeBytes_inside {m : Memory} (hw : m.wf p = true) {a : Nat} {bs : List Byte}
    (ha : a + bs.length ≤ p.memSize) {j : Nat} (hj : j < bs.length) :
    (m.writeBytes p a bs).read p (a + j) = bs[j] := by
  induction bs generalizing m a j with
  | nil => simp at hj
  | cons b bs ih =>
    simp only [List.length_cons] at ha hj
    cases j with
    | zero =>
      rw [Memory.writeBytes, read_writeBytes_of_outside _ _ _ (by omega)]
      simpa using read_write_self hw b (by omega)
    | succ j =>
      have := ih (m := m.write p a b) (wf_write hw a b) (a := a + 1) (by omega) (j := j) (by omega)
      simpa [Memory.writeBytes, Nat.add_assoc, Nat.add_comm 1] using this

@[simp] theorem Memory.length_readBytes (m : Memory) (a n : Nat) : (m.readBytes p a n).length = n := by
  induction n generalizing a with
  | zero => rfl
  | succ n ih => simp [Memory.readBytes, ih]

theorem Memory.getElem_readBytes (m : Memory) (a n : Nat) {j : Nat} (hj : j < (m.readBytes p a n).length) :
    (m.readBytes p a n)[j] = m.read p (a + j) := by
  induction n generalizing a j with
  | zero => simp at hj
  | succ n ih =>
    simp only [length_readBytes] at hj
    cases j with
    | zero => rfl
    | succ j =>
      have := ih (a + 1) (j := j) (by simp; omega)
      simpa [Memory.readBytes, Nat.add_assoc, Nat.add_comm 1] using this

theorem Memory.getD_readBytes (m : Memory) (a : Nat) {n j : Nat} (hj : j < n) :
    (m.readBytes p a n).getD j 0 = m.read p (a + j) := by
  have h : j < (m.readBytes p a n).length := by simpa using hj
  rw [List.getD_eq_getElem?_getD, List.getElem?_eq_getElem h, Option.getD_some, getElem_readBytes]

/-! ### The canonical form determines the memory -/

/-- Two canonical memories that read alike are the same list. -/
theorem Memory.eq_of_read_eq {m m' : Memory} {lo : Nat} (hw : m.wfFrom p lo = true) (hw' : m'.wfFrom p lo = true)
    (h : ∀ a, lo ≤ a → m.read p a = m'.read p a) : m = m' := by
  induction m generalizing lo m' with
  | nil =>
    cases m' with
    | nil => rfl
    | cons e rest =>
      obtain ⟨k, d⟩ := e
      simp only [Memory.wfFrom, Bool.and_eq_true, decide_eq_true_eq, bne_iff_ne] at hw'
      have := h k hw'.1.1.1
      simp only [Memory.read, if_true] at this
      exact absurd this.symm hw'.1.2
  | cons e rest ih =>
    obtain ⟨k, d⟩ := e
    cases m' with
    | nil =>
      simp only [Memory.wfFrom, Bool.and_eq_true, decide_eq_true_eq, bne_iff_ne] at hw
      have := h k hw.1.1.1
      simp only [Memory.read, if_true] at this
      exact absurd this hw.1.2
    | cons e' rest' =>
      obtain ⟨k', d'⟩ := e'
      simp only [Memory.wfFrom, Bool.and_eq_true, decide_eq_true_eq, bne_iff_ne] at hw hw'
      have h1 := h k hw.1.1.1
      have h2 := h k' hw'.1.1.1
      simp only [Memory.read] at h1 h2
      have hk : k = k' := by
        by_contra hne
        rcases Nat.lt_or_gt_of_ne hne with hlt | hlt
        · rw [if_pos trivial, if_neg hne, read_eq_reset_of_lt hw'.2 (by omega)] at h1
          exact hw.1.2 h1
        · rw [if_neg (Ne.symm hne), if_pos trivial, read_eq_reset_of_lt hw.2 (by omega)] at h2
          exact hw'.1.2 h2.symm
      subst hk
      simp only [if_true] at h1
      subst h1
      rw [ih hw.2 hw'.2 fun a ha => by
        have := h a (by omega)
        simpa [Memory.read, show a ≠ k by omega] using this]

end Sys2Proof.Machine
end

