-- ==== Sys2Proof/Laws/State.lean ====
section
/-!
SUPPORT. One lemma per field of State and named update of Machine/Ops.lean, each true by rfl: no later proof unfolds a
record update.
-/
namespace Sys2Proof.Machine

variable (s : State)

/-! `setReg` -/

@[simp] theorem State.setReg_v (x : Reg) (b : Byte) : (s.setReg x b).v = s.v.set x b := rfl
@[simp] theorem State.setReg_i (x : Reg) (b : Byte) : (s.setReg x b).i = s.i := rfl
@[simp] theorem State.setReg_pc (x : Reg) (b : Byte) : (s.setReg x b).pc = s.pc := rfl
@[simp] theorem State.setReg_sp (x : Reg) (b : Byte) : (s.setReg x b).sp = s.sp := rfl
@[simp] theorem State.setReg_stack (x : Reg) (b : Byte) : (s.setReg x b).stack = s.stack := rfl
@[simp] theorem State.setReg_dt (x : Reg) (b : Byte) : (s.setReg x b).dt = s.dt := rfl
@[simp] theorem State.setReg_st (x : Reg) (b : Byte) : (s.setReg x b).st = s.st := rfl
@[simp] theorem State.setReg_mem (x : Reg) (b : Byte) : (s.setReg x b).mem = s.mem := rfl
@[simp] theorem State.setReg_fb (x : Reg) (b : Byte) : (s.setReg x b).fb = s.fb := rfl
@[simp] theorem State.setReg_dirty (x : Reg) (b : Byte) : (s.setReg x b).dirty = s.dirty := rfl
@[simp] theorem State.setReg_key (x : Reg) (b : Byte) : (s.setReg x b).key = s.key := rfl
@[simp] theorem State.setReg_fault (x : Reg) (b : Byte) : (s.setReg x b).fault = s.fault := rfl
@[simp] theorem State.setReg_rndIn (x : Reg) (b : Byte) : (s.setReg x b).rndIn = s.rndIn := rfl
@[simp] theorem State.setReg_draws (x : Reg) (b : Byte) : (s.setReg x b).draws = s.draws := rfl
@[simp] theorem State.setReg_params (x : Reg) (b : Byte) : (s.setReg x b).params = s.params := rfl

/-! `setRegs` -/

@[simp] theorem State.setRegs_v (x : Reg) (bs : List Byte) : (s.setRegs x bs).v = Vector.ofFn fun i : Reg => if i ≤ x then bs.getD i 0 else s.v[i] := rfl
@[simp] theorem State.setRegs_i (x : Reg) (bs : List Byte) : (s.setRegs x bs).i = s.i := rfl
@[simp] theorem State.setRegs_pc (x : Reg) (bs : List Byte) : (s.setRegs x bs).pc = s.pc := rfl
@[simp] theorem State.setRegs_sp (x : Reg) (bs : List Byte) : (s.setRegs x bs).sp = s.sp := rfl
@[simp] theorem State.setRegs_stack (x : Reg) (bs : List Byte) : (s.setRegs x bs).stack = s.stack := rfl
@[simp] theorem State.setRegs_dt (x : Reg) (bs : List Byte) : (s.setRegs x bs).dt = s.dt := rfl
@[simp] theorem State.setRegs_st (x : Reg) (bs : List Byte) : (s.setRegs x bs).st = s.st := rfl
@[simp] theorem State.setRegs_mem (x : Reg) (bs : List Byte) : (s.setRegs x bs).mem = s.mem := rfl
@[simp] theorem State.setRegs_fb (x : Reg) (bs : List Byte) : (s.setRegs x bs).fb = s.fb := rfl
@[simp] theorem State.setRegs_dirty (x : Reg) (bs : List Byte) : (s.setRegs x bs).dirty = s.dirty := rfl
@[simp] theorem State.setRegs_key (x : Reg) (bs : List Byte) : (s.setRegs x bs).key = s.key := rfl
@[simp] theorem State.setRegs_fault (x : Reg) (bs : List Byte) : (s.setRegs x bs).fault = s.fault := rfl
@[simp] theorem State.setRegs_rndIn (x : Reg) (bs : List Byte) : (s.setRegs x bs).rndIn = s.rndIn := rfl
@[simp] theorem State.setRegs_draws (x : Reg) (bs : List Byte) : (s.setRegs x bs).draws = s.draws := rfl
@[simp] theorem State.setRegs_params (x : Reg) (bs : List Byte) : (s.setRegs x bs).params = s.params := rfl

/-! `setFlag` -/

@[simp] theorem State.setFlag_v (f : Bool) : (s.setFlag f).v = s.v.set vf (flagByte f) := rfl
@[simp] theorem State.setFlag_i (f : Bool) : (s.setFlag f).i = s.i := rfl
@[simp] theorem State.setFlag_pc (f : Bool) : (s.setFlag f).pc = s.pc := rfl
@[simp] theorem State.setFlag_sp (f : Bool) : (s.setFlag f).sp = s.sp := rfl
@[simp] theorem State.setFlag_stack (f : Bool) : (s.setFlag f).stack = s.stack := rfl
@[simp] theorem State.setFlag_dt (f : Bool) : (s.setFlag f).dt = s.dt := rfl
@[simp] theorem State.setFlag_st (f : Bool) : (s.setFlag f).st = s.st := rfl
@[simp] theorem State.setFlag_mem (f : Bool) : (s.setFlag f).mem = s.mem := rfl
@[simp] theorem State.setFlag_fb (f : Bool) : (s.setFlag f).fb = s.fb := rfl
@[simp] theorem State.setFlag_dirty (f : Bool) : (s.setFlag f).dirty = s.dirty := rfl
@[simp] theorem State.setFlag_key (f : Bool) : (s.setFlag f).key = s.key := rfl
@[simp] theorem State.setFlag_fault (f : Bool) : (s.setFlag f).fault = s.fault := rfl
@[simp] theorem State.setFlag_rndIn (f : Bool) : (s.setFlag f).rndIn = s.rndIn := rfl
@[simp] theorem State.setFlag_draws (f : Bool) : (s.setFlag f).draws = s.draws := rfl
@[simp] theorem State.setFlag_params (f : Bool) : (s.setFlag f).params = s.params := rfl

/-! `setI` -/

@[simp] theorem State.setI_v (w : Word) : (s.setI w).v = s.v := rfl
@[simp] theorem State.setI_i (w : Word) : (s.setI w).i = w := rfl
@[simp] theorem State.setI_pc (w : Word) : (s.setI w).pc = s.pc := rfl
@[simp] theorem State.setI_sp (w : Word) : (s.setI w).sp = s.sp := rfl
@[simp] theorem State.setI_stack (w : Word) : (s.setI w).stack = s.stack := rfl
@[simp] theorem State.setI_dt (w : Word) : (s.setI w).dt = s.dt := rfl
@[simp] theorem State.setI_st (w : Word) : (s.setI w).st = s.st := rfl
@[simp] theorem State.setI_mem (w : Word) : (s.setI w).mem = s.mem := rfl
@[simp] theorem State.setI_fb (w : Word) : (s.setI w).fb = s.fb := rfl
@[simp] theorem State.setI_dirty (w : Word) : (s.setI w).dirty = s.dirty := rfl
@[simp] theorem State.setI_key (w : Word) : (s.setI w).key = s.key := rfl
@[simp] theorem State.setI_fault (w : Word) : (s.setI w).fault = s.fault := rfl
@[simp] theorem State.setI_rndIn (w : Word) : (s.setI w).rndIn = s.rndIn := rfl
@[simp] theorem State.setI_draws (w : Word) : (s.setI w).draws = s.draws := rfl
@[simp] theorem State.setI_params (w : Word) : (s.setI w).params = s.params := rfl

/-! `setDt` -/

@[simp] theorem State.setDt_v (b : Byte) : (s.setDt b).v = s.v := rfl
@[simp] theorem State.setDt_i (b : Byte) : (s.setDt b).i = s.i := rfl
@[simp] theorem State.setDt_pc (b : Byte) : (s.setDt b).pc = s.pc := rfl
@[simp] theorem State.setDt_sp (b : Byte) : (s.setDt b).sp = s.sp := rfl
@[simp] theorem State.setDt_stack (b : Byte) : (s.setDt b).stack = s.stack := rfl
@[simp] theorem State.setDt_dt (b : Byte) : (s.setDt b).dt = b := rfl
@[simp] theorem State.setDt_st (b : Byte) : (s.setDt b).st = s.st := rfl
@[simp] theorem State.setDt_mem (b : Byte) : (s.setDt b).mem = s.mem := rfl
@[simp] theorem State.setDt_fb (b : Byte) : (s.setDt b).fb = s.fb := rfl
@[simp] theorem State.setDt_dirty (b : Byte) : (s.setDt b).dirty = s.dirty := rfl
@[simp] theorem State.setDt_key (b : Byte) : (s.setDt b).key = s.key := rfl
@[simp] theorem State.setDt_fault (b : Byte) : (s.setDt b).fault = s.fault := rfl
@[simp] theorem State.setDt_rndIn (b : Byte) : (s.setDt b).rndIn = s.rndIn := rfl
@[simp] theorem State.setDt_draws (b : Byte) : (s.setDt b).draws = s.draws := rfl
@[simp] theorem State.setDt_params (b : Byte) : (s.setDt b).params = s.params := rfl

/-! `setSt` -/

@[simp] theorem State.setSt_v (b : Byte) : (s.setSt b).v = s.v := rfl
@[simp] theorem State.setSt_i (b : Byte) : (s.setSt b).i = s.i := rfl
@[simp] theorem State.setSt_pc (b : Byte) : (s.setSt b).pc = s.pc := rfl
@[simp] theorem State.setSt_sp (b : Byte) : (s.setSt b).sp = s.sp := rfl
@[simp] theorem State.setSt_stack (b : Byte) : (s.setSt b).stack = s.stack := rfl
@[simp] theorem State.setSt_dt (b : Byte) : (s.setSt b).dt = s.dt := rfl
@[simp] theorem State.setSt_st (b : Byte) : (s.setSt b).st = b := rfl
@[simp] theorem State.setSt_mem (b : Byte) : (s.setSt b).mem = s.mem := rfl
@[simp] theorem State.setSt_fb (b : Byte) : (s.setSt b).fb = s.fb := rfl
@[simp] theorem State.setSt_dirty (b : Byte) : (s.setSt b).dirty = s.dirty := rfl
@[simp] theorem State.setSt_key (b : Byte) : (s.setSt b).key = s.key := rfl
@[simp] theorem State.setSt_fault (b : Byte) : (s.setSt b).fault = s.fault := rfl
@[simp] theorem State.setSt_rndIn (b : Byte) : (s.setSt b).rndIn = s.rndIn := rfl
@[simp] theorem State.setSt_draws (b : Byte) : (s.setSt b).draws = s.draws := rfl
@[simp] theorem State.setSt_params (b : Byte) : (s.setSt b).params = s.params := rfl

/-! `setMem` -/

@[simp] theorem State.setMem_v (m : Memory) : (s.setMem m).v = s.v := rfl
@[simp] theorem State.setMem_i (m : Memory) : (s.setMem m).i = s.i := rfl
@[simp] theorem State.setMem_pc (m : Memory) : (s.setMem m).pc = s.pc := rfl
@[simp] theorem State.setMem_sp (m : Memory) : (s.setMem m).sp = s.sp := rfl
@[simp] theorem State.setMem_stack (m : Memory) : (s.setMem m).stack = s.stack := rfl
@[simp] theorem State.setMem_dt (m : Memory) : (s.setMem m).dt = s.dt := rfl
@[simp] theorem State.setMem_st (m : Memory) : (s.setMem m).st = s.st := rfl
@[simp] theorem State.setMem_mem (m : Memory) : (s.setMem m).mem = m := rfl
@[simp] theorem State.setMem_fb (m : Memory) : (s.setMem m).fb = s.fb := rfl
@[simp] theorem State.setMem_dirty (m : Memory) : (s.setMem m).dirty = s.dirty := rfl
@[simp] theorem State.setMem_key (m : Memory) : (s.setMem m).key = s.key := rfl
@[simp] theorem State.setMem_fault (m : Memory) : (s.setMem m).fault = s.fault := rfl
@[simp] theorem State.setMem_rndIn (m : Memory) : (s.setMem m).rndIn = s.rndIn := rfl
@[simp] theorem State.setMem_draws (m : Memory) : (s.setMem m).draws = s.draws := rfl
@[simp] theorem State.setMem_params (m : Memory) : (s.setMem m).params = s.params := rfl

/-! `setFb` -/

@[simp] theorem State.setFb_v (f : Frame) : (s.setFb f).v = s.v := rfl
@[simp] theorem State.setFb_i (f : Frame) : (s.setFb f).i = s.i := rfl
@[simp] theorem State.setFb_pc (f : Frame) : (s.setFb f).pc = s.pc := rfl
@[simp] theorem State.setFb_sp (f : Frame) : (s.setFb f).sp = s.sp := rfl
@[simp] theorem State.setFb_stack (f : Frame) : (s.setFb f).stack = s.stack := rfl
@[simp] theorem State.setFb_dt (f : Frame) : (s.setFb f).dt = s.dt := rfl
@[simp] theorem State.setFb_st (f : Frame) : (s.setFb f).st = s.st := rfl
@[simp] theorem State.setFb_mem (f : Frame) : (s.setFb f).mem = s.mem := rfl
@[simp] theorem State.setFb_fb (f : Frame) : (s.setFb f).fb = f := rfl
@[simp] theorem State.setFb_dirty (f : Frame) : (s.setFb f).dirty = true := rfl
@[simp] theorem State.setFb_key (f : Frame) : (s.setFb f).key = s.key := rfl
@[simp] theorem State.setFb_fault (f : Frame) : (s.setFb f).fault = s.fault := rfl
@[simp] theorem State.setFb_rndIn (f : Frame) : (s.setFb f).rndIn = s.rndIn := rfl
@[simp] theorem State.setFb_draws (f : Frame) : (s.setFb f).draws = s.draws := rfl
@[simp] theorem State.setFb_params (f : Frame) : (s.setFb f).params = s.params := rfl

/-! `setPc` -/

@[simp] theorem State.setPc_v (t : Addr) : (s.setPc t).v = s.v := rfl
@[simp] theorem State.setPc_i (t : Addr) : (s.setPc t).i = s.i := rfl
@[simp] theorem State.setPc_pc (t : Addr) : (s.setPc t).pc = t := rfl
@[simp] theorem State.setPc_sp (t : Addr) : (s.setPc t).sp = s.sp := rfl
@[simp] theorem State.setPc_stack (t : Addr) : (s.setPc t).stack = s.stack := rfl
@[simp] theorem State.setPc_dt (t : Addr) : (s.setPc t).dt = s.dt := rfl
@[simp] theorem State.setPc_st (t : Addr) : (s.setPc t).st = s.st := rfl
@[simp] theorem State.setPc_mem (t : Addr) : (s.setPc t).mem = s.mem := rfl
@[simp] theorem State.setPc_fb (t : Addr) : (s.setPc t).fb = s.fb := rfl
@[simp] theorem State.setPc_dirty (t : Addr) : (s.setPc t).dirty = s.dirty := rfl
@[simp] theorem State.setPc_key (t : Addr) : (s.setPc t).key = s.key := rfl
@[simp] theorem State.setPc_fault (t : Addr) : (s.setPc t).fault = s.fault := rfl
@[simp] theorem State.setPc_rndIn (t : Addr) : (s.setPc t).rndIn = s.rndIn := rfl
@[simp] theorem State.setPc_draws (t : Addr) : (s.setPc t).draws = s.draws := rfl
@[simp] theorem State.setPc_params (t : Addr) : (s.setPc t).params = s.params := rfl

/-! `advance` -/

@[simp] theorem State.advance_v : (s.advance).v = s.v := rfl
@[simp] theorem State.advance_i : (s.advance).i = s.i := rfl
@[simp] theorem State.advance_pc : (s.advance).pc = s.pc + 2 := rfl
@[simp] theorem State.advance_sp : (s.advance).sp = s.sp := rfl
@[simp] theorem State.advance_stack : (s.advance).stack = s.stack := rfl
@[simp] theorem State.advance_dt : (s.advance).dt = s.dt := rfl
@[simp] theorem State.advance_st : (s.advance).st = s.st := rfl
@[simp] theorem State.advance_mem : (s.advance).mem = s.mem := rfl
@[simp] theorem State.advance_fb : (s.advance).fb = s.fb := rfl
@[simp] theorem State.advance_dirty : (s.advance).dirty = s.dirty := rfl
@[simp] theorem State.advance_key : (s.advance).key = s.key := rfl
@[simp] theorem State.advance_fault : (s.advance).fault = s.fault := rfl
@[simp] theorem State.advance_rndIn : (s.advance).rndIn = s.rndIn := rfl
@[simp] theorem State.advance_draws : (s.advance).draws = s.draws := rfl
@[simp] theorem State.advance_params : (s.advance).params = s.params := rfl

/-! `skip` -/

@[simp] theorem State.skip_v : (s.skip).v = s.v := rfl
@[simp] theorem State.skip_i : (s.skip).i = s.i := rfl
@[simp] theorem State.skip_pc : (s.skip).pc = s.pc + 4 := rfl
@[simp] theorem State.skip_sp : (s.skip).sp = s.sp := rfl
@[simp] theorem State.skip_stack : (s.skip).stack = s.stack := rfl
@[simp] theorem State.skip_dt : (s.skip).dt = s.dt := rfl
@[simp] theorem State.skip_st : (s.skip).st = s.st := rfl
@[simp] theorem State.skip_mem : (s.skip).mem = s.mem := rfl
@[simp] theorem State.skip_fb : (s.skip).fb = s.fb := rfl
@[simp] theorem State.skip_dirty : (s.skip).dirty = s.dirty := rfl
@[simp] theorem State.skip_key : (s.skip).key = s.key := rfl
@[simp] theorem State.skip_fault : (s.skip).fault = s.fault := rfl
@[simp] theorem State.skip_rndIn : (s.skip).rndIn = s.rndIn := rfl
@[simp] theorem State.skip_draws : (s.skip).draws = s.draws := rfl
@[simp] theorem State.skip_params : (s.skip).params = s.params := rfl

/-! `push` -/

@[simp] theorem State.push_v (r : Addr) : (s.push r).v = s.v := rfl
@[simp] theorem State.push_i (r : Addr) : (s.push r).i = s.i := rfl
@[simp] theorem State.push_pc (r : Addr) : (s.push r).pc = s.pc := rfl
@[simp] theorem State.push_sp (r : Addr) : (s.push r).sp = s.sp + 1 := rfl
@[simp] theorem State.push_stack (r : Addr) : (s.push r).stack = s.stack.set s.sp r := rfl
@[simp] theorem State.push_dt (r : Addr) : (s.push r).dt = s.dt := rfl
@[simp] theorem State.push_st (r : Addr) : (s.push r).st = s.st := rfl
@[simp] theorem State.push_mem (r : Addr) : (s.push r).mem = s.mem := rfl
@[simp] theorem State.push_fb (r : Addr) : (s.push r).fb = s.fb := rfl
@[simp] theorem State.push_dirty (r : Addr) : (s.push r).dirty = s.dirty := rfl
@[simp] theorem State.push_key (r : Addr) : (s.push r).key = s.key := rfl
@[simp] theorem State.push_fault (r : Addr) : (s.push r).fault = s.fault := rfl
@[simp] theorem State.push_rndIn (r : Addr) : (s.push r).rndIn = s.rndIn := rfl
@[simp] theorem State.push_draws (r : Addr) : (s.push r).draws = s.draws := rfl
@[simp] theorem State.push_params (r : Addr) : (s.push r).params = s.params := rfl

/-! `pop` -/

@[simp] theorem State.pop_v : (s.pop).v = s.v := rfl
@[simp] theorem State.pop_i : (s.pop).i = s.i := rfl
@[simp] theorem State.pop_pc : (s.pop).pc = s.stack[s.sp - 1] := rfl
@[simp] theorem State.pop_sp : (s.pop).sp = s.sp - 1 := rfl
@[simp] theorem State.pop_stack : (s.pop).stack = s.stack := rfl
@[simp] theorem State.pop_dt : (s.pop).dt = s.dt := rfl
@[simp] theorem State.pop_st : (s.pop).st = s.st := rfl
@[simp] theorem State.pop_mem : (s.pop).mem = s.mem := rfl
@[simp] theorem State.pop_fb : (s.pop).fb = s.fb := rfl
@[simp] theorem State.pop_dirty : (s.pop).dirty = s.dirty := rfl
@[simp] theorem State.pop_key : (s.pop).key = s.key := rfl
@[simp] theorem State.pop_fault : (s.pop).fault = s.fault := rfl
@[simp] theorem State.pop_rndIn : (s.pop).rndIn = s.rndIn := rfl
@[simp] theorem State.pop_draws : (s.pop).draws = s.draws := rfl
@[simp] theorem State.pop_params : (s.pop).params = s.params := rfl

/-! `raise` -/

@[simp] theorem State.raise_v (r : Fault) : (s.raise r).v = s.v := rfl
@[simp] theorem State.raise_i (r : Fault) : (s.raise r).i = s.i := rfl
@[simp] theorem State.raise_pc (r : Fault) : (s.raise r).pc = s.pc := rfl
@[simp] theorem State.raise_sp (r : Fault) : (s.raise r).sp = s.sp := rfl
@[simp] theorem State.raise_stack (r : Fault) : (s.raise r).stack = s.stack := rfl
@[simp] theorem State.raise_dt (r : Fault) : (s.raise r).dt = s.dt := rfl
@[simp] theorem State.raise_st (r : Fault) : (s.raise r).st = s.st := rfl
@[simp] theorem State.raise_mem (r : Fault) : (s.raise r).mem = s.mem := rfl
@[simp] theorem State.raise_fb (r : Fault) : (s.raise r).fb = s.fb := rfl
@[simp] theorem State.raise_dirty (r : Fault) : (s.raise r).dirty = s.dirty := rfl
@[simp] theorem State.raise_key (r : Fault) : (s.raise r).key = s.key := rfl
@[simp] theorem State.raise_fault (r : Fault) : (s.raise r).fault = some r := rfl
@[simp] theorem State.raise_rndIn (r : Fault) : (s.raise r).rndIn = s.rndIn := rfl
@[simp] theorem State.raise_draws (r : Fault) : (s.raise r).draws = s.draws := rfl
@[simp] theorem State.raise_params (r : Fault) : (s.raise r).params = s.params := rfl

/-! `takeRnd` -/

@[simp] theorem State.takeRnd_v : (s.takeRnd).v = s.v := rfl
@[simp] theorem State.takeRnd_i : (s.takeRnd).i = s.i := rfl
@[simp] theorem State.takeRnd_pc : (s.takeRnd).pc = s.pc := rfl
@[simp] theorem State.takeRnd_sp : (s.takeRnd).sp = s.sp := rfl
@[simp] theorem State.takeRnd_stack : (s.takeRnd).stack = s.stack := rfl
@[simp] theorem State.takeRnd_dt : (s.takeRnd).dt = s.dt := rfl
@[simp] theorem State.takeRnd_st : (s.takeRnd).st = s.st := rfl
@[simp] theorem State.takeRnd_mem : (s.takeRnd).mem = s.mem := rfl
@[simp] theorem State.takeRnd_fb : (s.takeRnd).fb = s.fb := rfl
@[simp] theorem State.takeRnd_dirty : (s.takeRnd).dirty = s.dirty := rfl
@[simp] theorem State.takeRnd_key : (s.takeRnd).key = s.key := rfl
@[simp] theorem State.takeRnd_fault : (s.takeRnd).fault = s.fault := rfl
@[simp] theorem State.takeRnd_rndIn : (s.takeRnd).rndIn = none := rfl
@[simp] theorem State.takeRnd_draws : (s.takeRnd).draws = s.draws + 1 := rfl
@[simp] theorem State.takeRnd_params : (s.takeRnd).params = s.params := rfl

/-! `skipIf` changes pc only -/

@[simp] theorem State.skipIf_pc (c : Bool) : (s.skipIf c).pc = if c then s.pc + 4 else s.pc + 2 := by
  cases c <;> rfl

@[simp] theorem State.skipIf_v (c : Bool) : (s.skipIf c).v = s.v := by cases c <;> rfl
@[simp] theorem State.skipIf_i (c : Bool) : (s.skipIf c).i = s.i := by cases c <;> rfl
@[simp] theorem State.skipIf_sp (c : Bool) : (s.skipIf c).sp = s.sp := by cases c <;> rfl
@[simp] theorem State.skipIf_stack (c : Bool) : (s.skipIf c).stack = s.stack := by cases c <;> rfl
@[simp] theorem State.skipIf_dt (c : Bool) : (s.skipIf c).dt = s.dt := by cases c <;> rfl
@[simp] theorem State.skipIf_st (c : Bool) : (s.skipIf c).st = s.st := by cases c <;> rfl
@[simp] theorem State.skipIf_mem (c : Bool) : (s.skipIf c).mem = s.mem := by cases c <;> rfl
@[simp] theorem State.skipIf_fb (c : Bool) : (s.skipIf c).fb = s.fb := by cases c <;> rfl
@[simp] theorem State.skipIf_dirty (c : Bool) : (s.skipIf c).dirty = s.dirty := by cases c <;> rfl
@[simp] theorem State.skipIf_key (c : Bool) : (s.skipIf c).key = s.key := by cases c <;> rfl
@[simp] theorem State.skipIf_fault (c : Bool) : (s.skipIf c).fault = s.fault := by cases c <;> rfl
@[simp] theorem State.skipIf_rndIn (c : Bool) : (s.skipIf c).rndIn = s.rndIn := by cases c <;> rfl
@[simp] theorem State.skipIf_draws (c : Bool) : (s.skipIf c).draws = s.draws := by cases c <;> rfl
@[simp] theorem State.skipIf_params (c : Bool) : (s.skipIf c).params = s.params := by cases c <;> rfl

/-! `reg` reads `v` -/

@[simp] theorem State.reg_setReg (x : Reg) (b : Byte) (r : Reg) :
    (s.setReg x b).reg r = if r = x then b else s.reg r := by
  simp only [State.reg, State.setReg, Fin.getElem_fin, Vector.getElem_set, Fin.ext_iff, eq_comm]

@[simp] theorem State.reg_setFlag (f : Bool) (r : Reg) :
    (s.setFlag f).reg r = if r = vf then flagByte f else s.reg r := by
  simp [State.setFlag]

@[simp] theorem State.reg_setRegs (x : Reg) (bs : List Byte) (r : Reg) :
    (s.setRegs x bs).reg r = if r ≤ x then bs.getD r 0 else s.reg r := by
  simp [State.reg, State.setRegs]

@[simp] theorem State.reg_setI (w : Word) (x' : Reg) : (s.setI w).reg x' = s.reg x' := rfl
@[simp] theorem State.reg_setDt (b : Byte) (x' : Reg) : (s.setDt b).reg x' = s.reg x' := rfl
@[simp] theorem State.reg_setSt (b : Byte) (x' : Reg) : (s.setSt b).reg x' = s.reg x' := rfl
@[simp] theorem State.reg_setMem (m : Memory) (x' : Reg) : (s.setMem m).reg x' = s.reg x' := rfl
@[simp] theorem State.reg_setFb (f : Frame) (x' : Reg) : (s.setFb f).reg x' = s.reg x' := rfl
@[simp] theorem State.reg_setPc (t : Addr) (x' : Reg) : (s.setPc t).reg x' = s.reg x' := rfl
@[simp] theorem State.reg_advance (x' : Reg) : (s.advance).reg x' = s.reg x' := rfl
@[simp] theorem State.reg_skip (x' : Reg) : (s.skip).reg x' = s.reg x' := rfl
@[simp] theorem State.reg_push (r : Addr) (x' : Reg) : (s.push r).reg x' = s.reg x' := rfl
@[simp] theorem State.reg_pop (x' : Reg) : (s.pop).reg x' = s.reg x' := rfl
@[simp] theorem State.reg_raise (r : Fault) (x' : Reg) : (s.raise r).reg x' = s.reg x' := rfl
@[simp] theorem State.reg_takeRnd (x' : Reg) : (s.takeRnd).reg x' = s.reg x' := rfl
@[simp] theorem State.reg_skipIf (c : Bool) (x' : Reg) : (s.skipIf c).reg x' = s.reg x' := by cases c <;> rfl

/-! `byte` reads `mem` -/

@[simp] theorem State.byte_setI (w : Word) (a' : Nat) : (s.setI w).byte a' = s.byte a' := rfl
@[simp] theorem State.byte_setDt (b : Byte) (a' : Nat) : (s.setDt b).byte a' = s.byte a' := rfl
@[simp] theorem State.byte_setSt (b : Byte) (a' : Nat) : (s.setSt b).byte a' = s.byte a' := rfl
@[simp] theorem State.byte_setMem (m : Memory) (a : Nat) : (s.setMem m).byte a = m.read s.params a := rfl
@[simp] theorem State.byte_setFb (f : Frame) (a' : Nat) : (s.setFb f).byte a' = s.byte a' := rfl
@[simp] theorem State.byte_setPc (t : Addr) (a' : Nat) : (s.setPc t).byte a' = s.byte a' := rfl
@[simp] theorem State.byte_advance (a' : Nat) : (s.advance).byte a' = s.byte a' := rfl
@[simp] theorem State.byte_skip (a' : Nat) : (s.skip).byte a' = s.byte a' := rfl
@[simp] theorem State.byte_push (r : Addr) (a' : Nat) : (s.push r).byte a' = s.byte a' := rfl
@[simp] theorem State.byte_pop (a' : Nat) : (s.pop).byte a' = s.byte a' := rfl
@[simp] theorem State.byte_raise (r : Fault) (a' : Nat) : (s.raise r).byte a' = s.byte a' := rfl
@[simp] theorem State.byte_takeRnd (a' : Nat) : (s.takeRnd).byte a' = s.byte a' := rfl
@[simp] theorem State.byte_skipIf (c : Bool) (a' : Nat) : (s.skipIf c).byte a' = s.byte a' := by cases c <;> rfl
@[simp] theorem State.byte_setReg (x : Reg) (b : Byte) (a' : Nat) : (s.setReg x b).byte a' = s.byte a' := rfl
@[simp] theorem State.byte_setRegs (x : Reg) (bs : List Byte) (a' : Nat) : (s.setRegs x bs).byte a' = s.byte a' := rfl
@[simp] theorem State.byte_setFlag (f : Bool) (a' : Nat) : (s.setFlag f).byte a' = s.byte a' := rfl

/-! `store` changes memory only -/

@[simp] theorem State.store_v (a : Nat) (bs : List Byte) : (s.store a bs).v = s.v := rfl
@[simp] theorem State.store_i (a : Nat) (bs : List Byte) : (s.store a bs).i = s.i := rfl
@[simp] theorem State.store_pc (a : Nat) (bs : List Byte) : (s.store a bs).pc = s.pc := rfl
@[simp] theorem State.store_sp (a : Nat) (bs : List Byte) : (s.store a bs).sp = s.sp := rfl
@[simp] theorem State.store_stack (a : Nat) (bs : List Byte) : (s.store a bs).stack = s.stack := rfl
@[simp] theorem State.store_dt (a : Nat) (bs : List Byte) : (s.store a bs).dt = s.dt := rfl
@[simp] theorem State.store_st (a : Nat) (bs : List Byte) : (s.store a bs).st = s.st := rfl
@[simp] theorem State.store_fb (a : Nat) (bs : List Byte) : (s.store a bs).fb = s.fb := rfl
@[simp] theorem State.store_dirty (a : Nat) (bs : List Byte) : (s.store a bs).dirty = s.dirty := rfl
@[simp] theorem State.store_key (a : Nat) (bs : List Byte) : (s.store a bs).key = s.key := rfl
@[simp] theorem State.store_fault (a : Nat) (bs : List Byte) : (s.store a bs).fault = s.fault := rfl
@[simp] theorem State.store_rndIn (a : Nat) (bs : List Byte) : (s.store a bs).rndIn = s.rndIn := rfl
@[simp] theorem State.store_draws (a : Nat) (bs : List Byte) : (s.store a bs).draws = s.draws := rfl
@[simp] theorem State.store_params (a : Nat) (bs : List Byte) : (s.store a bs).params = s.params := rfl
@[simp] theorem State.store_mem (a : Nat) (bs : List Byte) :
    (s.store a bs).mem = s.mem.writeBytes s.params a bs := rfl
@[simp] theorem State.reg_store (a : Nat) (bs : List Byte) (x' : Reg) : (s.store a bs).reg x' = s.reg x' := rfl

end Sys2Proof.Machine
end

