-- ==== Sys2Proof/Laws/Operands.lean ====
section
/-!
SUPPORT. One lemma per shared operand operation, saying everything it can do.
-/
namespace Sys2Proof.Machine

/-- The range check of R56 passes and the rest runs, or MemoryOverrun is latched and nothing else changes. -/
theorem withRange_cases (s : State) (n : Nat) (k : Nat → Result) :
    (s.dataAddr + n ≤ s.params.memSize ∧ withRange s n k = k s.dataAddr) ∨
    (s.params.memSize < s.dataAddr + n ∧ withRange s n k = .next (s.raise (.memoryOverrun s.pc))) := by
  unfold withRange raise
  split
  · exact .inr ⟨by omega, rfl⟩
  · exact .inl ⟨by omega, rfl⟩

theorem withRange_of_le {s : State} {n : Nat} (h : s.dataAddr + n ≤ s.params.memSize) (k : Nat → Result) :
    withRange s n k = k s.dataAddr := by
  unfold withRange; rw [if_neg (by omega)]

theorem withRange_of_gt {s : State} {n : Nat} (h : s.params.memSize < s.dataAddr + n) (k : Nat → Result) :
    withRange s n k = .next (s.raise (.memoryOverrun s.pc)) := by
  unfold withRange; rw [if_pos (by omega)]; rfl

theorem dataAddr_lt (s : State) : s.dataAddr < 4096 := by
  unfold State.dataAddr; exact BitVec.isLt _

/-- `I[11:0]` is I modulo 4096. -/
theorem dataAddr_eq (s : State) : s.dataAddr = s.i.toNat % 4096 := by
  simp [State.dataAddr, BitVec.extractLsb'_toNat]

/-- The frame of a store, in any state. -/
theorem byte_store_outside (s : State) (a : Nat) (bs : List Byte) {c : Nat} (h : c < a ∨ a + bs.length ≤ c) :
    (s.store a bs).byte c = s.byte c :=
  Memory.read_writeBytes_of_outside _ _ _ h

/-- The stored bytes of a store that stays in memory. -/
theorem byte_store_inside {s : State} (hw : s.mem.wf s.params = true) {a : Nat} {bs : List Byte}
    (ha : a + bs.length ≤ s.params.memSize) {j : Nat} (hj : j < bs.length) : (s.store a bs).byte (a + j) = bs[j] :=
  Memory.read_writeBytes_inside hw ha hj

@[simp] theorem length_bytes (s : State) (a n : Nat) : (s.bytes a n).length = n := Memory.length_readBytes _ _ _

theorem getElem_bytes (s : State) (a n : Nat) {j : Nat} (hj : j < (s.bytes a n).length) :
    (s.bytes a n)[j] = s.byte (a + j) := Memory.getElem_readBytes _ _ _ hj

theorem getD_bytes (s : State) (a : Nat) {n j : Nat} (hj : j < n) : (s.bytes a n).getD j 0 = s.byte (a + j) :=
  Memory.getD_readBytes _ _ hj

/-- The low nibble is the value modulo 16. -/
theorem lowNibble_val (b : Byte) : (lowNibble b).val = b.toNat % 16 := by
  simp [lowNibble]

/-- `leastKey` finds the least pressed key. -/
theorem leastKey_eq_some {s : State} {k : Fin 16} (h : s.leastKey = some k) :
    s.key[k] = true ∧ ∀ j : Fin 16, j < k → s.key[j] = false := by
  unfold State.leastKey at h
  obtain ⟨hk, as, bs, hl, hb⟩ := List.find?_eq_some_iff_append.1 h
  refine ⟨hk, fun j hj => ?_⟩
  have hs : (List.finRange 16).Pairwise (· < ·) := by decide
  have hmem : j ∈ List.finRange 16 := List.mem_finRange j
  rw [hl] at hs hmem
  rcases List.mem_append.1 hmem with hm | hm
  · simpa using hb j hm
  · rcases List.mem_cons.1 hm with rfl | hm
    · exact absurd hj (lt_irrefl _)
    · have := (List.pairwise_cons.1 (List.pairwise_append.1 hs).2.1).1 j hm
      exact absurd hj (not_lt_of_gt this)

/-- `leastKey` finds nothing only where no key is pressed. -/
theorem leastKey_eq_none {s : State} (h : s.leastKey = none) (j : Fin 16) : s.key[j] = false := by
  unfold State.leastKey at h
  simpa using List.find?_eq_none.1 h j (List.mem_finRange j)

@[simp] theorem length_regsUpTo (s : State) (x : Reg) : (s.regsUpTo x).length = x.val + 1 := by
  simp [State.regsUpTo]

theorem getElem_regsUpTo (s : State) (x r : Reg) (h : r.val < (s.regsUpTo x).length) :
    (s.regsUpTo x)[r.val] = s.reg r := by
  simp [State.regsUpTo, State.reg]

@[simp] theorem length_bcdDigits (b : Byte) : (bcdDigits b).length = 3 := rfl

end Sys2Proof.Machine
end

