-- ==== Sys2Proof/Laws/PerInstr.lean ====
section
/-!
SUPPORT. Per instruction: the family TableMatch, which says that an instruction's word has the fixed bits of its row of
R75's table (30_encoding.md), every operand bit outside the mask.
-/
namespace Sys2Proof.Laws.TableMatch

/-- The `match` and `mask` columns of the instruction's row in R75. -/
def row : Instr → Word × Word
  | .cls => (0x00E0, 0xFFFF)
  | .ret => (0x00EE, 0xFFFF)
  | .sys _ => (0x0000, 0xF000)
  | .jp _ => (0x1000, 0xF000)
  | .call _ => (0x2000, 0xF000)
  | .seByte _ _ => (0x3000, 0xF000)
  | .sneByte _ _ => (0x4000, 0xF000)
  | .seReg _ _ => (0x5000, 0xF00F)
  | .ldByte _ _ => (0x6000, 0xF000)
  | .addByte _ _ => (0x7000, 0xF000)
  | .ldReg _ _ => (0x8000, 0xF00F)
  | .orReg _ _ => (0x8001, 0xF00F)
  | .andReg _ _ => (0x8002, 0xF00F)
  | .xorReg _ _ => (0x8003, 0xF00F)
  | .addReg _ _ => (0x8004, 0xF00F)
  | .subReg _ _ => (0x8005, 0xF00F)
  | .shr _ _ => (0x8006, 0xF00F)
  | .subnReg _ _ => (0x8007, 0xF00F)
  | .shl _ _ => (0x800E, 0xF00F)
  | .sneReg _ _ => (0x9000, 0xF00F)
  | .ldI _ => (0xA000, 0xF000)
  | .jpV0 _ => (0xB000, 0xF000)
  | .rnd _ _ => (0xC000, 0xF000)
  | .drw _ _ _ => (0xD000, 0xF000)
  | .skp _ => (0xE09E, 0xF0FF)
  | .sknp _ => (0xE0A1, 0xF0FF)
  | .ldVxDt _ => (0xF007, 0xF0FF)
  | .ldVxK _ => (0xF00A, 0xF0FF)
  | .ldDtVx _ => (0xF015, 0xF0FF)
  | .ldStVx _ => (0xF018, 0xF0FF)
  | .addI _ => (0xF01E, 0xF0FF)
  | .ldF _ => (0xF029, 0xF0FF)
  | .ldB _ => (0xF033, 0xF0FF)
  | .ldMemVx _ => (0xF055, 0xF0FF)
  | .ldVxMem _ => (0xF065, 0xF0FF)

/-- The word of the instruction selects its row: `op AND mask = match`. -/
def Statement (i : Instr) : Prop := encode i &&& (row i).2 = (row i).1

/-! One lemma per format: what the mask leaves of a word. -/

theorem wordNNN_mask (t : Nibble) (nnn : Addr) : wordNNN t nnn &&& 0xF000#16 = wordNNN t 0 := by
  apply BitVec.eq_of_getLsbD_eq; intro i hi
  simp only [BitVec.getLsbD_and, getLsbD_wordNNN]
  interval_cases i <;> simp

theorem wordXKK_mask_family (t : Nibble) (x : Reg) (kk : Byte) :
    wordXKK t x kk &&& 0xF000#16 = wordXKK t 0 0 := by
  apply BitVec.eq_of_getLsbD_eq; intro i hi
  simp only [BitVec.getLsbD_and, getLsbD_wordXKK]
  interval_cases i <;> simp [regNibble]

theorem wordXKK_mask_byte (t : Nibble) (x : Reg) (kk : Byte) :
    wordXKK t x kk &&& 0xF0FF#16 = wordXKK t 0 kk := by
  apply BitVec.eq_of_getLsbD_eq; intro i hi
  simp only [BitVec.getLsbD_and, getLsbD_wordXKK]
  interval_cases i <;> simp [regNibble]

theorem wordXYN_mask_family (t : Nibble) (x y : Reg) (n : Nibble) :
    wordXYN t x y n &&& 0xF000#16 = wordXYN t 0 0 0 := by
  apply BitVec.eq_of_getLsbD_eq; intro i hi
  simp only [BitVec.getLsbD_and, getLsbD_wordXYN]
  interval_cases i <;> simp [regNibble]

theorem wordXYN_mask_nibble (t : Nibble) (x y : Reg) (n : Nibble) :
    wordXYN t x y n &&& 0xF00F#16 = wordXYN t 0 0 n := by
  apply BitVec.eq_of_getLsbD_eq; intro i hi
  simp only [BitVec.getLsbD_and, getLsbD_wordXYN]
  interval_cases i <;> simp [regNibble]

/-! One lemma per constructor. -/

theorem cls : Statement .cls := rfl
theorem ret : Statement .ret := rfl
theorem sys (nnn : Addr) : Statement (.sys nnn) :=
  (wordNNN_mask 0x0 nnn).trans rfl
theorem jp (nnn : Addr) : Statement (.jp nnn) :=
  (wordNNN_mask 0x1 nnn).trans rfl
theorem call (nnn : Addr) : Statement (.call nnn) :=
  (wordNNN_mask 0x2 nnn).trans rfl
theorem seByte (x : Reg) (kk : Byte) : Statement (.seByte x kk) :=
  (wordXKK_mask_family 0x3 x kk).trans rfl
theorem sneByte (x : Reg) (kk : Byte) : Statement (.sneByte x kk) :=
  (wordXKK_mask_family 0x4 x kk).trans rfl
theorem seReg (x y : Reg) : Statement (.seReg x y) :=
  (wordXYN_mask_nibble 0x5 x y 0x0).trans rfl
theorem ldByte (x : Reg) (kk : Byte) : Statement (.ldByte x kk) :=
  (wordXKK_mask_family 0x6 x kk).trans rfl
theorem addByte (x : Reg) (kk : Byte) : Statement (.addByte x kk) :=
  (wordXKK_mask_family 0x7 x kk).trans rfl
theorem ldReg (x y : Reg) : Statement (.ldReg x y) :=
  (wordXYN_mask_nibble 0x8 x y 0x0).trans rfl
theorem orReg (x y : Reg) : Statement (.orReg x y) :=
  (wordXYN_mask_nibble 0x8 x y 0x1).trans rfl
theorem andReg (x y : Reg) : Statement (.andReg x y) :=
  (wordXYN_mask_nibble 0x8 x y 0x2).trans rfl
theorem xorReg (x y : Reg) : Statement (.xorReg x y) :=
  (wordXYN_mask_nibble 0x8 x y 0x3).trans rfl
theorem addReg (x y : Reg) : Statement (.addReg x y) :=
  (wordXYN_mask_nibble 0x8 x y 0x4).trans rfl
theorem subReg (x y : Reg) : Statement (.subReg x y) :=
  (wordXYN_mask_nibble 0x8 x y 0x5).trans rfl
theorem shr (x y : Reg) : Statement (.shr x y) :=
  (wordXYN_mask_nibble 0x8 x y 0x6).trans rfl
theorem subnReg (x y : Reg) : Statement (.subnReg x y) :=
  (wordXYN_mask_nibble 0x8 x y 0x7).trans rfl
theorem shl (x y : Reg) : Statement (.shl x y) :=
  (wordXYN_mask_nibble 0x8 x y 0xE).trans rfl
theorem sneReg (x y : Reg) : Statement (.sneReg x y) :=
  (wordXYN_mask_nibble 0x9 x y 0x0).trans rfl
theorem ldI (nnn : Addr) : Statement (.ldI nnn) :=
  (wordNNN_mask 0xA nnn).trans rfl
theorem jpV0 (nnn : Addr) : Statement (.jpV0 nnn) :=
  (wordNNN_mask 0xB nnn).trans rfl
theorem rnd (x : Reg) (kk : Byte) : Statement (.rnd x kk) :=
  (wordXKK_mask_family 0xC x kk).trans rfl
theorem drw (x y : Reg) (n : Fin 16) : Statement (.drw x y n) :=
  (wordXYN_mask_family 0xD x y (BitVec.ofFin n)).trans rfl
theorem skp (x : Reg) : Statement (.skp x) :=
  (wordXKK_mask_byte 0xE x 0x9E).trans rfl
theorem sknp (x : Reg) : Statement (.sknp x) :=
  (wordXKK_mask_byte 0xE x 0xA1).trans rfl
theorem ldVxDt (x : Reg) : Statement (.ldVxDt x) :=
  (wordXKK_mask_byte 0xF x 0x07).trans rfl
theorem ldVxK (x : Reg) : Statement (.ldVxK x) :=
  (wordXKK_mask_byte 0xF x 0x0A).trans rfl
theorem ldDtVx (x : Reg) : Statement (.ldDtVx x) :=
  (wordXKK_mask_byte 0xF x 0x15).trans rfl
theorem ldStVx (x : Reg) : Statement (.ldStVx x) :=
  (wordXKK_mask_byte 0xF x 0x18).trans rfl
theorem addI (x : Reg) : Statement (.addI x) :=
  (wordXKK_mask_byte 0xF x 0x1E).trans rfl
theorem ldF (x : Reg) : Statement (.ldF x) :=
  (wordXKK_mask_byte 0xF x 0x29).trans rfl
theorem ldB (x : Reg) : Statement (.ldB x) :=
  (wordXKK_mask_byte 0xF x 0x33).trans rfl
theorem ldMemVx (x : Reg) : Statement (.ldMemVx x) :=
  (wordXKK_mask_byte 0xF x 0x55).trans rfl
theorem ldVxMem (x : Reg) : Statement (.ldVxMem x) :=
  (wordXKK_mask_byte 0xF x 0x65).trans rfl

end Sys2Proof.Laws.TableMatch
end

