-- ==== Sys2Proof/Laws/Step.lean ====
section
/-!
SUPPORT. What the step is about to do, what placing a word does, the shapes the meanings share, and the fields after
each host event.
-/
namespace Sys2Proof.Machine

/-! ### The phases of a step (R100) -/

theorem nextPhase_halted {s : State} {r : Fault} (h : s.fault = some r) : nextPhase s = .halted := by
  simp [nextPhase, h]

theorem nextPhase_fetchOverrun {s : State} (hf : s.fault = none) (hp : fetchable s.params s.pc = false) :
    nextPhase s = .raises (.fetchOverrun s.pc) := by
  simp [nextPhase, hf, hp]

theorem nextPhase_decodeFailure {s : State} (hf : s.fault = none) (hp : fetchable s.params s.pc = true)
    (hd : decodeWord (s.wordAt s.pc.toNat) = none) :
    nextPhase s = .raises (.decodeFailure (s.wordAt s.pc.toNat)) := by
  simp [nextPhase, hf, hp, hd]

theorem nextPhase_executes {s : State} {i : Instr} (hf : s.fault = none) (hp : fetchable s.params s.pc = true)
    (hd : decodeWord (s.wordAt s.pc.toNat) = some i) : nextPhase s = .executes i := by
  simp [nextPhase, hf, hp, hd]

/-- Everything the first three phases of a step can come to, each with its guard (R100 to R102, R107). -/
theorem nextPhase_cases (s : State) :
    (∃ r, s.fault = some r ∧ nextPhase s = .halted) ∨
    (s.fault = none ∧ fetchable s.params s.pc = false ∧ nextPhase s = .raises (.fetchOverrun s.pc)) ∨
    (s.fault = none ∧ fetchable s.params s.pc = true ∧ decodeWord (s.wordAt s.pc.toNat) = none ∧
      nextPhase s = .raises (.decodeFailure (s.wordAt s.pc.toNat))) ∨
    (∃ i, s.fault = none ∧ fetchable s.params s.pc = true ∧ decodeWord (s.wordAt s.pc.toNat) = some i ∧
      nextPhase s = .executes i) := by
  cases hf : s.fault with
  | some r => exact .inl ⟨r, rfl, nextPhase_halted hf⟩
  | none =>
    cases hp : fetchable s.params s.pc with
    | false => exact .inr (.inl ⟨rfl, rfl, nextPhase_fetchOverrun hf hp⟩)
    | true =>
      cases hd : decodeWord (s.wordAt s.pc.toNat) with
      | none => exact .inr (.inr (.inl ⟨rfl, rfl, rfl, nextPhase_decodeFailure hf hp hd⟩))
      | some i => exact .inr (.inr (.inr ⟨i, rfl, rfl, rfl, nextPhase_executes hf hp hd⟩))

theorem fetchable_iff (p : Config.Params) (pc : Addr) : fetchable p pc = true ↔ pc.toNat + 1 < p.memSize := by
  simp [fetchable]

/-- The fetched word is big-endian: the byte at the lower address counts 256 times (R53). -/
theorem toNat_wordAt (s : State) (a : Nat) : (s.wordAt a).toNat = 256 * (s.byte a).toNat + (s.byte (a + 1)).toNat :=
  toNat_wordOfBytes _ _

/-- The word of two bytes just stored in memory is the word stored (R53). -/
theorem wordAt_store {s : State} (hw : s.mem.wf s.params = true) {a : Nat} (ha : a + 1 < s.params.memSize) (op : Word) :
    (s.store a [hiByte op, loByte op]).wordAt a = op := by
  have h0 := byte_store_inside hw (a := a) (bs := [hiByte op, loByte op])
    (show a + 2 ≤ s.params.memSize by omega) (j := 0) (by simp)
  have h1 := byte_store_inside hw (a := a) (bs := [hiByte op, loByte op])
    (show a + 2 ≤ s.params.memSize by omega) (j := 1) (by simp)
  rw [Nat.add_zero] at h0
  rw [State.wordAt, h0, h1]
  exact wordOfBytes_bytes op

/-- In a memory that reaches to the load address, `placeWord` finds a pc that can be fetched at. -/
theorem fetchable_fetchPc {p : Config.Params} (hp : Config.progBase + 1 < p.memSize) (pc : Addr) :
    fetchable p (fetchPc p pc) = true := by
  unfold fetchPc
  split
  · assumption
  · exact (fetchable_iff _ _).2 hp

/-- After `placeWord` the next step executes what the decoder reads from the word, or latches DecodeFailure with it. -/
theorem nextPhase_placeWord {s : State} (hw : s.mem.wf s.params = true) (hs : Config.progBase + 1 < s.params.memSize)
    (nbits w : Nat) :
    nextPhase (placeWord s nbits w) =
      match decodeTableWord nbits w with
      | some i => .executes i
      | none => .raises (.decodeFailure (tableWord nbits w)) := by
  have hp := fetchable_fetchPc hs s.pc
  have hm : (placeWord s nbits w).wordAt (placeWord s nbits w).pc.toNat = tableWord nbits w :=
    wordAt_store (s := s) hw ((fetchable_iff _ _).1 hp) (tableWord nbits w)
  rw [decodeTableWord_eq]
  cases hd : decodeWord (tableWord nbits w) with
  | some i => exact nextPhase_executes (s := placeWord s nbits w) rfl hp (by rw [hm, hd])
  | none =>
    have := nextPhase_decodeFailure (s := placeWord s nbits w) rfl hp (by rw [hm, hd])
    rw [this, hm]

/-! ### The shapes of the meanings (42_alu.md, 44_draw.md) -/

section
variable (s : State)

@[simp] theorem State.result_i (x : Reg) (b : Byte) : (s.result x b).i = s.i := rfl
@[simp] theorem State.result_pc (x : Reg) (b : Byte) : (s.result x b).pc = s.pc + 2 := rfl
@[simp] theorem State.result_sp (x : Reg) (b : Byte) : (s.result x b).sp = s.sp := rfl
@[simp] theorem State.result_stack (x : Reg) (b : Byte) : (s.result x b).stack = s.stack := rfl
@[simp] theorem State.result_dt (x : Reg) (b : Byte) : (s.result x b).dt = s.dt := rfl
@[simp] theorem State.result_st (x : Reg) (b : Byte) : (s.result x b).st = s.st := rfl
@[simp] theorem State.result_mem (x : Reg) (b : Byte) : (s.result x b).mem = s.mem := rfl
@[simp] theorem State.result_fb (x : Reg) (b : Byte) : (s.result x b).fb = s.fb := rfl
@[simp] theorem State.result_dirty (x : Reg) (b : Byte) : (s.result x b).dirty = s.dirty := rfl
@[simp] theorem State.result_key (x : Reg) (b : Byte) : (s.result x b).key = s.key := rfl
@[simp] theorem State.result_fault (x : Reg) (b : Byte) : (s.result x b).fault = s.fault := rfl
@[simp] theorem State.result_rndIn (x : Reg) (b : Byte) : (s.result x b).rndIn = s.rndIn := rfl
@[simp] theorem State.result_draws (x : Reg) (b : Byte) : (s.result x b).draws = s.draws := rfl
@[simp] theorem State.result_params (x : Reg) (b : Byte) : (s.result x b).params = s.params := rfl
@[simp] theorem State.byte_result (x : Reg) (b : Byte) (a' : Nat) : (s.result x b).byte a' = s.byte a' := rfl

/-- `result` writes Vx and no other register. -/
@[simp] theorem State.reg_result (x : Reg) (b : Byte) (r : Reg) :
    (s.result x b).reg r = if r = x then b else s.reg r := by
  simp [State.result]

@[simp] theorem State.resultFlag_i (x : Reg) (b : Byte) (f : Bool) : (s.resultFlag x b f).i = s.i := rfl
@[simp] theorem State.resultFlag_pc (x : Reg) (b : Byte) (f : Bool) : (s.resultFlag x b f).pc = s.pc + 2 := rfl
@[simp] theorem State.resultFlag_sp (x : Reg) (b : Byte) (f : Bool) : (s.resultFlag x b f).sp = s.sp := rfl
@[simp] theorem State.resultFlag_stack (x : Reg) (b : Byte) (f : Bool) : (s.resultFlag x b f).stack = s.stack := rfl
@[simp] theorem State.resultFlag_dt (x : Reg) (b : Byte) (f : Bool) : (s.resultFlag x b f).dt = s.dt := rfl
@[simp] theorem State.resultFlag_st (x : Reg) (b : Byte) (f : Bool) : (s.resultFlag x b f).st = s.st := rfl
@[simp] theorem State.resultFlag_mem (x : Reg) (b : Byte) (f : Bool) : (s.resultFlag x b f).mem = s.mem := rfl
@[simp] theorem State.resultFlag_fb (x : Reg) (b : Byte) (f : Bool) : (s.resultFlag x b f).fb = s.fb := rfl
@[simp] theorem State.resultFlag_dirty (x : Reg) (b : Byte) (f : Bool) : (s.resultFlag x b f).dirty = s.dirty := rfl
@[simp] theorem State.resultFlag_key (x : Reg) (b : Byte) (f : Bool) : (s.resultFlag x b f).key = s.key := rfl
@[simp] theorem State.resultFlag_fault (x : Reg) (b : Byte) (f : Bool) : (s.resultFlag x b f).fault = s.fault := rfl
@[simp] theorem State.resultFlag_rndIn (x : Reg) (b : Byte) (f : Bool) : (s.resultFlag x b f).rndIn = s.rndIn := rfl
@[simp] theorem State.resultFlag_draws (x : Reg) (b : Byte) (f : Bool) : (s.resultFlag x b f).draws = s.draws := rfl
@[simp] theorem State.resultFlag_params (x : Reg) (b : Byte) (f : Bool) : (s.resultFlag x b f).params = s.params := rfl
@[simp] theorem State.byte_resultFlag (x : Reg) (b : Byte) (f : Bool) (a' : Nat) : (s.resultFlag x b f).byte a' = s.byte a' := rfl

/-- `resultFlag` writes Vx, then VF: where Vx is VF the flag stands (R131). -/
@[simp] theorem State.reg_resultFlag (x : Reg) (b : Byte) (f : Bool) (r : Reg) :
    (s.resultFlag x b f).reg r = if r = vf then flagByte f else if r = x then b else s.reg r := by
  simp [State.resultFlag]

@[simp] theorem State.drawn_i (c : Canvas) : (s.drawn c).i = s.i := rfl
@[simp] theorem State.drawn_pc (c : Canvas) : (s.drawn c).pc = s.pc + 2 := rfl
@[simp] theorem State.drawn_sp (c : Canvas) : (s.drawn c).sp = s.sp := rfl
@[simp] theorem State.drawn_stack (c : Canvas) : (s.drawn c).stack = s.stack := rfl
@[simp] theorem State.drawn_dt (c : Canvas) : (s.drawn c).dt = s.dt := rfl
@[simp] theorem State.drawn_st (c : Canvas) : (s.drawn c).st = s.st := rfl
@[simp] theorem State.drawn_mem (c : Canvas) : (s.drawn c).mem = s.mem := rfl
@[simp] theorem State.drawn_fb (c : Canvas) : (s.drawn c).fb = c.fb := rfl
@[simp] theorem State.drawn_dirty (c : Canvas) : (s.drawn c).dirty = true := rfl
@[simp] theorem State.drawn_key (c : Canvas) : (s.drawn c).key = s.key := rfl
@[simp] theorem State.drawn_fault (c : Canvas) : (s.drawn c).fault = s.fault := rfl
@[simp] theorem State.drawn_rndIn (c : Canvas) : (s.drawn c).rndIn = s.rndIn := rfl
@[simp] theorem State.drawn_draws (c : Canvas) : (s.drawn c).draws = s.draws := rfl
@[simp] theorem State.drawn_params (c : Canvas) : (s.drawn c).params = s.params := rfl
@[simp] theorem State.byte_drawn (c : Canvas) (a' : Nat) : (s.drawn c).byte a' = s.byte a' := rfl

/-- A drawing writes VF and no other register. -/
@[simp] theorem State.reg_drawn (c : Canvas) (r : Reg) :
    (s.drawn c).reg r = if r = vf then flagByte c.collided else s.reg r := by
  simp [State.drawn]

end

/-- A flag is 0 or 1 (R25). -/
theorem flagByte_cases (f : Bool) : flagByte f = 0 ∨ flagByte f = 1 := by
  cases f
  · exact .inl rfl
  · exact .inr rfl

/-! ### Memory after a load -/

theorem wf_load (p : Config.Params) (program : List Byte) : (Memory.load p program).wf p = true :=
  Memory.wf_writeBytes (m := []) rfl Config.progBase program

theorem wf_unspecifiedMemory (p : Config.Params) (d n : Nat) : (unspecifiedMemory p d n).wf p = true := by
  induction n with
  | zero => rfl
  | succ n ih => exact Memory.wf_write ih _ _

/-- A screen of free pixels has the right shape. -/
theorem wf_unspecifiedFrame (p : Config.Params) (d : Nat) : (unspecifiedFrame p d).wf p = true := by
  simp [Frame.wf, unspecifiedFrame]

theorem loaded_params (s : State) (program : List Byte) : (loaded s program).params = s.params := rfl
theorem loaded_mem (s : State) (program : List Byte) : (loaded s program).mem = Memory.load s.params program := rfl
theorem loaded_fb (s : State) (program : List Byte) : (loaded s program).fb = Frame.off s.params := rfl
theorem rejected_params (s : State) (size : Nat) : (rejected s size).params = s.params := by rw [rejected]
theorem rejected_mem (s : State) (size : Nat) :
    (rejected s size).mem = unspecifiedMemory s.params s.draws s.params.memSize := by rw [rejected]
theorem rejected_fb (s : State) (size : Nat) : (rejected s size).fb = unspecifiedFrame s.params s.draws := by rw [rejected]
theorem rejected_fault (s : State) (size : Nat) : (rejected s size).fault = some (.programTooLong size) := by
  rw [rejected]

theorem resetLoad_of_le {s : State} {program : List Byte} (h : program.length ≤ progMax s.params) :
    resetLoad s program = loaded s program := by
  rw [resetLoad, if_pos h]

theorem resetLoad_of_gt {s : State} {program : List Byte} (h : progMax s.params < program.length) :
    resetLoad s program = rejected s program.length := by
  rw [resetLoad, if_neg (Nat.not_le.2 h)]

/-! ### Timers and keys (60_exceptions.md) -/

theorem toNat_saturatingDecrement (t : Byte) (n : Nat) : (saturatingDecrement t n).toNat = t.toNat - n := by
  have := t.isLt
  rw [saturatingDecrement, BitVec.toNat_ofNat, Nat.mod_eq_of_lt (by omega)]

theorem keyEvent_of_lt {k : Nat} (h : k < 16) (s : State) (status : KeyStatus) :
    keyEvent s k status = { s with key := s.key.set k (status == .pressed) } := by
  rw [keyEvent, dif_pos h]

theorem keyEvent_of_ge {k : Nat} (h : 16 ≤ k) (s : State) (status : KeyStatus) : keyEvent s k status = s := by
  rw [keyEvent, dif_neg (Nat.not_lt.2 h)]

end Sys2Proof.Machine
end

