-- ==== Sys2Proof/Tests/Slice0.lean ====
section
/-!
SUPPORT. Tests and witnesses. The expected results come from the spec's own vectors (95_test_vectors.md; the id of the
vector stands before each test) or, where none is named, from the rule named there. The witnesses show that the
hypotheses of each statement in Certificates/Slice0/Obligations.lean are met together.
-/
namespace Sys2Proof.Tests
open Sys2Proof Sys2Proof.Machine

/-! ### Helpers -/

/-- The state after reset with some registers set. -/
def withRegs (l : List (Reg × Byte)) : State := l.foldl (fun s p => s.setReg p.1 p.2) State.reset

/-- `s` with the bytes stored from `a` on. -/
def withBytes (s : State) (a : Nat) (bs : List Byte) : State := s.store a bs

/-- `s` with one key Pressed. -/
def press (s : State) (k : Fin 16) : State := { s with key := s.key.set k true }

/-- A frame given by its On pixels (row, column). -/
def lit (ps : List (Nat × Nat)) : Frame := ps.foldl (fun f p => f.flip p.1 p.2) State.reset.fb

/-- The next state of an outcome. -/
def nextOf : Result → State
  | .next t => t
  | _ => State.reset

/-- What an outcome answers, as data that can be compared. -/
def answer {α : Type} : Host.Outcome α Fault Refusal → Option α
  | .next t => some t
  | _ => none

/-- One step of `s` with the word placed where it fetches. -/
def run (s : State) (w : Nat) : State := nextOf (step (s.withFetchWord 16 w))

/-! ### Well-formedness: the one check refuses the one kind of ill-formed term (R76) -/

theorem test_wf_sys_cls_refused : (Instr.sys 0x0E0).wellFormed = false := by decide
theorem test_wf_sys_ret_refused : (Instr.sys 0x0EE).wellFormed = false := by decide
theorem test_wf_sys_accepted : (Instr.sys 0x0E1).wellFormed = true := by decide

/-! ### Decoding: every constructor from a word written out from R75's pattern (section 2.1) -/

theorem test_decode_cls : decodeWord 0b0000000011100000 = some .cls := by decide
theorem test_decode_ret : decodeWord 0b0000000011101110 = some .ret := by decide
theorem test_decode_sys : decodeWord 0b0000000111100000 = some (.sys 0x1E0) := by decide
theorem test_decode_jp : decodeWord 0b0001101010111100 = some (.jp 0xABC) := by decide
theorem test_decode_call : decodeWord 0b0010001000000000 = some (.call 0x200) := by decide
theorem test_decode_se_byte : decodeWord 0b0011101001111111 = some (.seByte 10 0x7F) := by decide
theorem test_decode_sne_byte : decodeWord 0b0100101001111111 = some (.sneByte 10 0x7F) := by decide
theorem test_decode_se_reg : decodeWord 0b0101101010110000 = some (.seReg 10 11) := by decide
theorem test_decode_ld_byte : decodeWord 0b0110110000010010 = some (.ldByte 12 0x12) := by decide
theorem test_decode_add_byte : decodeWord 0b0111110000010010 = some (.addByte 12 0x12) := by decide
theorem test_decode_ld_reg : decodeWord 0b1000101010110000 = some (.ldReg 10 11) := by decide
theorem test_decode_or : decodeWord 0b1000101010110001 = some (.orReg 10 11) := by decide
theorem test_decode_and : decodeWord 0b1000101010110010 = some (.andReg 10 11) := by decide
theorem test_decode_xor : decodeWord 0b1000101010110011 = some (.xorReg 10 11) := by decide
theorem test_decode_add_reg : decodeWord 0b1000101010110100 = some (.addReg 10 11) := by decide
theorem test_decode_sub : decodeWord 0b1000101010110101 = some (.subReg 10 11) := by decide
theorem test_decode_shr : decodeWord 0b1000101010110110 = some (.shr 10 11) := by decide
theorem test_decode_subn : decodeWord 0b1000101010110111 = some (.subnReg 10 11) := by decide
theorem test_decode_shl : decodeWord 0b1000101010111110 = some (.shl 10 11) := by decide
theorem test_decode_sne_reg : decodeWord 0b1001101010110000 = some (.sneReg 10 11) := by decide
theorem test_decode_ld_i : decodeWord 0b1010000100100011 = some (.ldI 0x123) := by decide
theorem test_decode_jp_v0 : decodeWord 0b1011000100100011 = some (.jpV0 0x123) := by decide
theorem test_decode_rnd : decodeWord 0b1100001111110000 = some (.rnd 3 0xF0) := by decide
theorem test_decode_drw : decodeWord 0b1101000100100101 = some (.drw 1 2 5) := by decide
theorem test_decode_skp : decodeWord 0b1110000110011110 = some (.skp 1) := by decide
theorem test_decode_sknp : decodeWord 0b1110000110100001 = some (.sknp 1) := by decide
theorem test_decode_ld_vx_dt : decodeWord 0b1111000100000111 = some (.ldVxDt 1) := by decide
theorem test_decode_ld_vx_k : decodeWord 0b1111000100001010 = some (.ldVxK 1) := by decide
theorem test_decode_ld_dt_vx : decodeWord 0b1111000100010101 = some (.ldDtVx 1) := by decide
theorem test_decode_ld_st_vx : decodeWord 0b1111000100011000 = some (.ldStVx 1) := by decide
theorem test_decode_add_i : decodeWord 0b1111000100011110 = some (.addI 1) := by decide
theorem test_decode_ld_f : decodeWord 0b1111000100101001 = some (.ldF 1) := by decide
theorem test_decode_ld_b : decodeWord 0b1111000100110011 = some (.ldB 1) := by decide
theorem test_decode_store : decodeWord 0b1111000101010101 = some (.ldMemVx 1) := by decide
theorem test_decode_load : decodeWord 0b1111000101100101 = some (.ldVxMem 1) := by decide

/-- Section 2.1's rows that fail. -/
theorem test_decode_illegal :
    [0x5AB1, 0x5ABF, 0x8AB8, 0x8AB9, 0x8ABA, 0x8ABD, 0x8ABF, 0x9AB8, 0xE19F, 0xE1A0, 0xE100, 0xE1FF, 0xF100, 0xF175,
      0xF185, 0xF130, 0xF1FF, 0xFFFF].all (fun w => decodeWord w == none) = true := by decide

/-- Section 2.1's rows of family 0 that are SYS and not CLS or RET. -/
theorem test_decode_family0 :
    [0x000, 0x0E1, 0x0EF, 0x1E0, 0xFFF, 0x0FD, 0x0C4].all
      (fun n => decodeWord (BitVec.ofNat 16 n) == some (.sys (BitVec.ofNat 12 n))) = true := by decide

/-- S12: the operations of family 8 whose nibbles are 0 to 7 and E, and the seven that fail. -/
theorem test_decode_family8 : (List.range 16).map (fun n => (decodeWord (BitVec.ofNat 16 (0x8120 + n))).isSome) =
    [true, true, true, true, true, true, true, true, false, false, false, false, false, false, true, false] := by decide

/-- Two rows of R75's table meet in one word only where one of them is SYS (R75, R76). -/
theorem test_table_rows_disjoint :
    (opcodeTable.filter fun r => r.pattern != 0x0000).Pairwise
      (fun r q => (r.pattern ^^^ q.pattern) &&& (r.mask &&& q.mask) ≠ 0) := by decide

/-- The bytes are laid out big-endian (R53). -/
theorem test_encode_bytes : encodeBytes (.drw 1 2 5) = [0xD1, 0x25] := by decide
theorem test_decode_bytes : decodeBytes [0x22, 0x10, 0xAA] = .instr (.call 0x210) [0xAA] := by decide
theorem test_decode_bytes_short : decodeBytes [0x22] = .truncated := by decide
theorem test_decode_table_word : decodeTableWord 16 0xD125 = some (.drw 1 2 5) := by decide

/-! ### The step (section 2.2) -/

/-- X1. -/
theorem test_step_decode_failure : run State.reset 0x5001 =
    { State.reset.withFetchWord 16 0x5001 with fault := some (.decodeFailure 0x5001) } := by decide
/-- X4: an odd pc is legal. -/
theorem test_step_odd_pc : (run { State.reset with pc := 0x345 } 0xFFFF).fault = some (.decodeFailure 0xFFFF) := by
  decide
/-- X5. -/
theorem test_step_fetch_overrun : (nextOf (step { State.reset with pc := 0xFFE })).fault = some (.fetchOverrun 0xFFE) := by
  decide
/-- X7: the highest address at which an instruction executes. -/
theorem test_step_top : (run { State.reset with pc := 0xFFD } 0x6A55).reg 10 = 0x55 ∧
    (run { State.reset with pc := 0xFFD } 0x6A55).pc = 0xFFF := by decide
/-- X8: a skip wraps modulo 4096. -/
theorem test_step_skip_wraps : (run { State.reset with pc := 0xFFC } 0x3000).pc = 0x000 := by decide
/-- Section 2.2's halted core: the second step changes nothing. -/
theorem test_step_halted : answer (step (run State.reset 0x5001)) = some (run State.reset 0x5001) := by decide
/-- The empty program: the first word is SYS 0x000. -/
theorem test_step_empty : answer (step State.reset) = some { State.reset with pc := 0x202 } := by decide

/-! ### Flow (section 2.3) -/

/-- F2. -/
theorem test_sys : run { withRegs [(0, 0x11)] with i := 0x0123 } 0x0FFF =
    { ({ withRegs [(0, 0x11)] with i := 0x0123 } : State).withFetchWord 16 0x0FFF with pc := 0x202 } := by decide
/-- F4, F5: on a lit pixel, and that dirty is set. -/
theorem test_cls : (run { State.reset with fb := lit [(0, 0), (3, 5), (31, 63)], dirty := false } 0x00E0).fb.pixel 3 5 = false ∧
    (run { State.reset with fb := lit [(0, 0), (3, 5), (31, 63)], dirty := false } 0x00E0).dirty = true := by decide
/-- F8: the deepest return. -/
theorem test_ret : let t := run { State.reset with pc := 0x400, sp := 15, stack := (State.reset.stack.set 14 0xFFD).set 13 0x222 } 0x00EE
    t.pc = 0xFFD ∧ t.sp = 14 ∧ t.stack[14] = 0xFFD := by decide
/-- F7. -/
theorem test_ret_underflow : (run State.reset 0x00EE).fault = some (.stackUnderflow 0x200) := by decide
/-- F11. -/
theorem test_jp : (run State.reset 0x1FFF).pc = 0xFFF := by decide
/-- F14: the 15th nested call. -/
theorem test_call : let t := run { State.reset with pc := 0x300, sp := 14 } 0x2456
    t.pc = 0x456 ∧ t.sp = 15 ∧ t.stack[14] = 0x302 ∧ t.fault = none := by decide
/-- F15: the 16th; the stack and sp are untouched. -/
theorem test_call_overflow : let t := run { State.reset with pc := 0x300, sp := 15 } 0x2456
    t.fault = some (.stackOverflow 0x300) ∧ t.sp = 15 ∧ t.stack = State.reset.stack ∧ t.pc = 0x300 := by decide
/-- F17, F18. -/
theorem test_se_byte : (run { State.reset with pc := 0x208 } 0x3100).pc = 0x20C ∧
    (run { withRegs [(1, 0x04)] with pc := 0x208 } 0x3100).pc = 0x20A := by decide
/-- F19, F20. -/
theorem test_sne_byte : (run { withRegs [(2, 0x10)] with pc := 0x300 } 0x4210).pc = 0x302 ∧
    (run { withRegs [(2, 0x10)] with pc := 0x300 } 0x4211).pc = 0x304 := by decide
/-- F21, F22. -/
theorem test_se_reg : (run { withRegs [(3, 0x7F), (4, 0x7F)] with pc := 0x220 } 0x5340).pc = 0x224 ∧
    (run (withRegs [(3, 0x7F), (4, 0x7E)]) 0x5340).pc = 0x202 := by decide
/-- F24, F25. -/
theorem test_sne_reg : (run (withRegs [(0, 0x01), (1, 0x02)]) 0x9010).pc = 0x204 ∧
    (run (withRegs [(0, 0x02), (1, 0x02)]) 0x9010).pc = 0x202 := by decide
/-- F29, F30: the sum wraps, and the register is V0. -/
theorem test_jp_v0 : (run (withRegs [(0, 0x02)]) 0xBFFF).pc = 0x001 ∧
    (run (withRegs [(0, 0x01), (1, 0x55)]) 0xB123).pc = 0x124 := by decide

/-! ### Arithmetic and logic (section 2.4) -/

/-- A2. -/
theorem test_ld_byte : (run State.reset 0x6F37).reg 15 = 0x37 := by decide
/-- A3: VF untouched. -/
theorem test_add_byte : (run (withRegs [(0, 0x20), (15, 0x01)]) 0x70EE).reg 0 = 0x0E ∧
    (run (withRegs [(0, 0x20), (15, 0x01)]) 0x70EE).reg 15 = 0x01 := by decide
/-- A8. -/
theorem test_ld_reg : (run (withRegs [(15, 0x01), (3, 0x99)]) 0x83F0).reg 3 = 0x01 := by decide
/-- A9, A13: VF not reset, and VF as the destination. -/
theorem test_or : (run (withRegs [(0, 0xF0), (1, 0x0F), (15, 0x01)]) 0x8011).reg 0 = 0xFF ∧
    (run (withRegs [(0, 0xF0), (1, 0x0F), (15, 0x01)]) 0x8011).reg 15 = 0x01 ∧
    (run (withRegs [(15, 0x01), (2, 0x80)]) 0x8F21).reg 15 = 0x81 := by decide
/-- A10. -/
theorem test_and : (run (withRegs [(0, 0xF3), (1, 0x3C), (15, 0x01)]) 0x8012).reg 0 = 0x30 ∧
    (run (withRegs [(0, 0xF3), (1, 0x3C), (15, 0x01)]) 0x8012).reg 15 = 0x01 := by decide
/-- A11. -/
theorem test_xor : (run (withRegs [(0, 0xFF), (1, 0x0F), (15, 0x01)]) 0x8013).reg 0 = 0xF0 ∧
    (run (withRegs [(0, 0xFF), (1, 0x0F), (15, 0x01)]) 0x8013).reg 15 = 0x01 := by decide
/-- A14, A15. -/
theorem test_add_reg : (run (withRegs [(0, 0xF0), (1, 0x20)]) 0x8014).reg 0 = 0x10 ∧
    (run (withRegs [(0, 0xF0), (1, 0x20)]) 0x8014).reg 15 = 0x01 ∧
    (run (withRegs [(0, 0xFF), (15, 0x01)]) 0x8014).reg 15 = 0x00 := by decide
/-- A18, A19: VF as destination and as source. -/
theorem test_add_reg_vf : (run (withRegs [(15, 0xFF), (1, 0x02)]) 0x8F14).reg 15 = 0x01 ∧
    (run (withRegs [(0, 0x10), (15, 0x05)]) 0x80F4).reg 0 = 0x15 := by decide
/-- A21, A23. -/
theorem test_sub : (run (withRegs [(0, 0x12), (1, 0x34), (15, 0x01)]) 0x8015).reg 0 = 0xDE ∧
    (run (withRegs [(0, 0x12), (1, 0x34), (15, 0x01)]) 0x8015).reg 15 = 0x00 ∧
    (run (withRegs [(0, 0x55), (1, 0x55)]) 0x8015).reg 15 = 0x01 := by decide
/-- A25, A26. -/
theorem test_sub_vf : (run (withRegs [(15, 0x05), (1, 0x03)]) 0x8F15).reg 15 = 0x01 ∧
    (run (withRegs [(0, 0x05), (15, 0x06)]) 0x80F5).reg 0 = 0xFF := by decide
/-- A28, A33: y is ignored. -/
theorem test_shr : (run (withRegs [(0, 0x05)]) 0x8006).reg 0 = 0x02 ∧ (run (withRegs [(0, 0x05)]) 0x8006).reg 15 = 0x01 ∧
    (run (withRegs [(2, 0x06), (3, 0xFF)]) 0x8236).reg 2 = 0x03 := by decide
/-- A34, A35. -/
theorem test_shr_vf : (run (withRegs [(15, 0x03)]) 0x8F06).reg 15 = 0x01 ∧
    (run (withRegs [(15, 0x02)]) 0x8F06).reg 15 = 0x00 := by decide
/-- A36, A37. -/
theorem test_subn : (run (withRegs [(0, 0x12), (1, 0x34)]) 0x8017).reg 0 = 0x22 ∧
    (run (withRegs [(0, 0x12), (1, 0x34)]) 0x8017).reg 15 = 0x01 ∧
    (run (withRegs [(0, 0x34), (1, 0x12), (15, 0x01)]) 0x8017).reg 15 = 0x00 := by decide
/-- A40, A43. -/
theorem test_shl : (run (withRegs [(0, 0x81)]) 0x800E).reg 0 = 0x02 ∧ (run (withRegs [(0, 0x81)]) 0x800E).reg 15 = 0x01 ∧
    (run (withRegs [(0, 0x40), (15, 0x01)]) 0x800E).reg 15 = 0x00 := by decide

/-! ### Index and random (section 2.5) -/

/-- I2. -/
theorem test_ld_i : (run { State.reset with i := 0xF123 } 0xAFFF).i = 0x0FFF := by decide
/-- I3: the host's byte is the one used. -/
theorem test_rnd : (run (withRnd State.reset 0xA7) 0xC00F).reg 0 = 0x07 := by decide
/-- I4: a mask of 0 gives 0. -/
theorem test_rnd_mask : answer (execRnd 0 0x00 (withRnd (withRegs [(0, 0x99)]) 0xFF)) =
    some { withRegs [] with pc := 0x202, draws := 1 } := by decide
/-- I9, I10. -/
theorem test_add_i : (run { withRegs [(0, 0x01)] with i := 0x0FFF } 0xF01E).i = 0x1000 ∧
    (run { withRegs [(0, 0x01)] with i := 0xFFFF } 0xF01E).i = 0x0000 := by decide
/-- I14, I15. -/
theorem test_ld_f : (run (withRegs [(0, 0x1A)]) 0xF029).i = 0x0032 ∧
    (run { withRegs [(0, 0xFF)] with i := 0x0ABC } 0xF029).i = 0x004B := by decide

/-! ### Draw (section 2.6) -/

/-- D3: one pixel collides, one is lit. -/
theorem test_drw_collision : let t := run { withBytes State.reset 0x300 [0xC0] with i := 0x0300, fb := lit [(0, 0)] } 0xD011
    t.fb = lit [(0, 1)] ∧ t.reg 15 = 0x01 ∧ t.dirty = true := by decide
/-- D6: the start is reduced modulo the screen. -/
theorem test_drw_modulo : (run { withBytes (withRegs [(0, 0xFF), (1, 0xFF)]) 0x300 [0x80] with i := 0x0300 } 0xD011).fb =
    lit [(31, 63)] := by decide
/-- D8: rows past the bottom are dropped. -/
theorem test_drw_bottom : (drawSprite documentParams .wrap State.reset.fb 0x00 0x1F [0xFF, 0xFF]).fb =
    lit ((List.range 8).map fun c => (31, c)) := by decide
/-- D11 (wrap): columns past the right edge go on at the left end; the flag is set by one of them. -/
theorem test_drw_wrap : drawSprite documentParams .wrap (lit [(0, 0)]) 0x3C 0x00 [0xFF] =
    ⟨lit [(0, 1), (0, 2), (0, 3), (0, 60), (0, 61), (0, 62), (0, 63)], true⟩ := by decide
/-- D11 (clip): columns past the right edge are dropped. -/
theorem test_drw_clip : drawSprite documentParams .clip (lit [(0, 0)]) 0x3C 0x00 [0xFF] =
    ⟨lit [(0, 0), (0, 60), (0, 61), (0, 62), (0, 63)], false⟩ := by decide
/-- D13, D18: n = 0 draws nothing, clears VF, sets dirty and never faults. -/
theorem test_drw_zero_rows : let t := run { withRegs [(15, 0x01)] with i := 0x0FFF, dirty := false } 0xD010
    t.reg 15 = 0x00 ∧ t.dirty = true ∧ t.fault = none := by decide
/-- D15: the whole range is checked. -/
theorem test_drw_overrun : (run { State.reset with i := 0x0FFE } 0xD012).fault = some (.memoryOverrun 0x200) := by decide

/-! ### Keypad (section 2.7) -/

/-- K3, K4. -/
theorem test_skp : (run (press (withRegs [(0, 0x15)]) 5) 0xE09E).pc = 0x204 ∧
    (run (press (press (withRegs [(0, 0x05)]) 4) 6) 0xE09E).pc = 0x202 := by decide
/-- K5, K7. -/
theorem test_sknp : (run (withRegs [(0, 0x05)]) 0xE0A1).pc = 0x204 ∧
    (run (press (withRegs [(0, 0xF5)]) 5) 0xE0A1).pc = 0x202 := by decide
/-- K8: hold. -/
theorem test_ld_k_holds : run State.reset 0xF00A = State.reset.withFetchWord 16 0xF00A := by decide
/-- K10, K11: the lowest index wins; key 0 is a key. -/
theorem test_ld_k : (run (press (press (withRegs [(2, 0xEE)]) 9) 3) 0xF20A).reg 2 = 0x03 ∧
    (run (press (withRegs [(15, 0x33)]) 0) 0xFF0A).reg 15 = 0x00 := by decide

/-! ### Timers and memory (section 2.8) -/

/-- T1. -/
theorem test_ld_vx_dt : (run { State.reset with dt := 0x03 } 0xF107).reg 1 = 0x03 := by decide
/-- T3. -/
theorem test_ld_dt_vx : (run (withRegs [(0, 0x3C)]) 0xF015).dt = 0x3C := by decide
/-- T5. -/
theorem test_ld_st_vx : (run (withRegs [(0, 0x0A)]) 0xF018).st = 0x0A := by decide
/-- T6. -/
theorem test_ld_b : (run { withRegs [(0, 0xFE)] with i := 0x0300 } 0xF033).bytes 0x300 3 = [0x02, 0x05, 0x04] := by
  decide
/-- T12: nothing is written. -/
theorem test_ld_b_overrun : run { withRegs [(3, 0x7B)] with i := 0x0FFD } 0xF333 =
    (({ withRegs [(3, 0x7B)] with i := 0x0FFD } : State).withFetchWord 16 0xF333).raise (.memoryOverrun 0x200) := by decide
/-- T13: V3 is not stored, I is unchanged. -/
theorem test_store : let t := run { withRegs [(0, 0x11), (1, 0x22), (2, 0x33), (3, 0x44)] with i := 0x0400 } 0xF255
    t.bytes 0x400 4 = [0x11, 0x22, 0x33, 0x00] ∧ t.i = 0x0400 := by decide
/-- T16: not even the bytes that would fit. -/
theorem test_store_overrun : let t := run { withRegs [(0, 0xA0)] with i := 0x0FF0 } 0xFF55
    t.fault = some (.memoryOverrun 0x200) ∧ t.byte 0xFF0 = 0x00 := by decide
/-- T22: the font's glyph 0. -/
theorem test_load : let t := run (withRegs [(5, 0x77)]) 0xF465
    (t.regsUpTo 5) = [0xF0, 0x90, 0x90, 0x90, 0xF0, 0x77] := by decide
/-- T20: no register is written. -/
theorem test_load_overrun : let t := run { withBytes State.reset 0xFFE [0x5A] with i := 0x0FFE } 0xF165
    t.fault = some (.memoryOverrun 0x200) ∧ t.reg 0 = 0x00 := by decide

/-! ### Host events (sections 2.2, 2.7, 2.8; S9, S10) -/

/-- Section 2.8, host side. -/
theorem test_tick : tick { State.reset with dt := 0x03, st := 0x01 } 2 = { State.reset with dt := 0x01, st := 0x00 } ∧
    (tick { State.reset with dt := 0xFF } 1000).dt = 0x00 := by decide
/-- Section 2.7, host side. -/
theorem test_key_event : keyEvent State.reset 16 .pressed = State.reset ∧
    keyEvent (keyEvent State.reset 3 .pressed) 3 .pressed = press State.reset 3 ∧
    keyEvent (keyEvent State.reset 3 .pressed) 3 .released = State.reset := by decide
/-- S10: once. -/
theorem test_snapshot : answer (handle .getSnapshot State.reset) =
      some ({ State.reset with dirty := false }, .snapshot (some State.reset.fb)) ∧
    answer (handle .getSnapshot { State.reset with dirty := false }) = some ({ State.reset with dirty := false }, .snapshot none) := by
  decide
/-- R230: the bytes are placed from 0x200 on; the reply is Ok. -/
theorem test_reset_load : answer (handle (.resetLoad [0x22, 0x10]) (run State.reset 0x5001)) =
    some ({ State.reset with mem := [(0x200, 0x22), (0x201, 0x10)] }, .result none) := by decide
/-- R108, R211: what a step and a status read return; the codes of R200. -/
theorem test_replies : answer (handle .readStatus (run State.reset 0x5001)) =
      some (run State.reset 0x5001, .status (some (.decodeFailure 0x5001))) ∧
    faultCode (run State.reset 0x5001).fault = 1 ∧ faultInfo (run State.reset 0x5001).fault = 0x5001 ∧
    faultCode State.reset.fault = 0 := by decide
/-- R22: a sequence of events, replies in order (the halted core of section 2.2). -/
theorem test_events : answer (handleAll [.step 0, .tick 2] { State.reset.withFetchWord 16 0x5001 with dt := 0x05 }) =
    some ({ run State.reset 0x5001 with dt := 0x03 }, [.result (some (.decodeFailure 0x5001)), .nothing]) := by decide

/-! ### Other values of the parameters (R5) -/

/-- MEM_SIZE = 0x1000: address 0xFFF is a byte, so an instruction at 0xFFE executes and LD B may end there (R50). -/
def memory4096 : State := State.resetOf { documentParams with memSize := 0x1000 }
theorem test_memory4096 : (run { memory4096 with pc := 0xFFE } 0x6A55).reg 10 = 0x55 ∧
    (run { memory4096.setReg 0 0xFE with i := 0x0FFD } 0xF033).byte 0xFFF = 0x04 ∧
    (nextOf (step { memory4096 with pc := 0xFFF })).fault = some (.fetchOverrun 0xFFF) := by decide
/-- W = 10, H = 8: a start is reduced modulo W and H, and the left half of the byte wraps (R161). -/
theorem test_small_screen : (drawSprite { documentParams with width := 10, height := 8 } .wrap
    (Frame.off { documentParams with width := 10, height := 8 }) 0x13 0x0F [0x88]).fb =
    ((Frame.off { documentParams with width := 10, height := 8 }).flip 7 9).flip 7 3 := by decide

/-! ### Placing a word -/

/-- From a halted core at the top of memory, the word placed is the one that runs. -/
theorem test_fetch_word_halted :
    (nextOf (step (({ State.reset with pc := 0xFFF, fault := some (.fetchOverrun 0xFFF) } : State).withFetchWord 16 0x6A55))).reg
      10 = 0x55 := by decide

/-! ### Witnesses: hypotheses of the statements, met together; one for each clause, at boundary values -/

/-- A state with a word at 0x200, built without the helper under test. -/
def holding (hi lo : Byte) : State := { State.reset with mem := [(0x200, hi), (0x201, lo)] }

theorem witness_SysAdvancesOnly : (0x0E1#12 ≠ 0x0E0#12 ∧ 0x0E1#12 ≠ 0x0EE#12) ∧
    (0x0EF#12 ≠ 0x0E0#12 ∧ 0x0EF#12 ≠ 0x0EE#12) := by decide

theorem witness_RetPopsOrUnderflows_empty : State.reset.sp.val = 0 := by decide
theorem witness_RetPopsOrUnderflows_pop : ({ State.reset with sp := 1 } : State).sp.val = (0 : Fin 16).val + 1 ∧
    ({ State.reset with sp := 15 } : State).sp.val = (14 : Fin 16).val + 1 := by decide

theorem witness_CallPushesOrOverflows_full : ({ State.reset with sp := 15 } : State).sp.val = 15 := by decide
theorem witness_CallPushesOrOverflows_push : State.reset.sp.val < 15 ∧ ({ State.reset with sp := 14 } : State).sp.val < 15 := by
  decide

theorem witness_ByteSkips : State.reset.reg 1 = 0x00 ∧ (withRegs [(1, 0x04)]).reg 1 ≠ 0x00 := by decide
theorem witness_RegisterSkips : (withRegs [(3, 0x7F), (4, 0x7F)]).reg 3 = (withRegs [(3, 0x7F), (4, 0x7F)]).reg 4 ∧
    (withRegs [(3, 0x7F)]).reg 3 ≠ (withRegs [(3, 0x7F)]).reg 4 ∧ (0x1 : Nibble) ≠ 0 ∧ (0xF : Nibble) ≠ 0 := by decide

/-- x = E is not VF: also for SUB, SUBN and the shifts. -/
theorem witness_AddRegisterCarry : (14 : Reg) ≠ 15 ∧ (0 : Reg) ≠ 15 ∧ (0 : Reg) ≠ 14 := by decide
theorem witness_SubtractNoBorrow : (14 : Reg) ≠ 15 ∧ (0 : Reg) ≠ 15 ∧ (0 : Reg) ≠ 14 := by decide
theorem witness_ShiftsByOne : (14 : Reg) ≠ 15 ∧ (0 : Reg) ≠ 15 ∧ (0 : Reg) ≠ 14 := by decide
theorem witness_LoadsAndAddByte : (0 : Reg) ≠ 15 := by decide
theorem witness_LogicBitByBit : (0 : Reg) ≠ 15 := by decide

theorem witness_RndMasksTheFreeByte : (withRnd State.reset 0xA7).rndIn = some 0xA7 ∧ State.reset.rndIn = none := by decide

/-- The invariant after reset, for the witnesses below. -/
theorem inv_reset : Safety.Inv State.reset := by decide

theorem witness_DrwFlipsPixelsAndReports_overrun :
    ({ State.reset with i := 0x0FFE } : State).dataAddr + (2 : Fin 16).val > State.reset.params.memSize := by decide
theorem witness_DrwFlipsPixelsAndReports_runs : Safety.Inv { State.reset with i := 0x0FFE } ∧
    ({ State.reset with i := 0x0FFE } : State).dataAddr + (1 : Fin 16).val ≤ State.reset.params.memSize ∧
    ({ State.reset with i := 0x0FFF } : State).dataAddr + (0 : Fin 16).val ≤ State.reset.params.memSize := by decide
/-- Glyph 0 at (0, 0): its first bit lies on pixel (0, 0), and on an Off screen every pixel it lies on is Off. -/
theorem witness_DrwFlipsPixelsAndReports_bit :
    Claims.SpriteBitOn Config.drawXOverflow State.reset 0 1 5 0 0 ∧
    ∀ row col, Claims.SpriteBitOn Config.drawXOverflow State.reset 0 1 5 row col → State.reset.fb.pixel row col = false :=
  ⟨⟨0, 0, by decide, by decide, by decide, by decide, by decide, by decide, .inl (by decide)⟩,
    fun row col _ => Frame.pixel_off (p := documentParams) row col⟩
/-- Over a lit pixel (0, 0) the same bit collides. -/
theorem witness_DrwFlipsPixelsAndReports_collision :
    Claims.SpriteBitOn Config.drawXOverflow { State.reset with fb := lit [(0, 0)] } 0 1 5 0 0 ∧
    ({ State.reset with fb := lit [(0, 0)] } : State).fb.pixel 0 0 = true :=
  ⟨⟨0, 0, by decide, by decide, by decide, by decide, by decide, by decide, .inl (by decide)⟩, by decide⟩
/-- Glyph 0 has four columns: the pixel (0, 4) is under none of its 1 bits. -/
theorem witness_DrwFlipsPixelsAndReports_beside :
    ¬ Claims.SpriteBitOn Config.drawXOverflow State.reset 0 1 5 0 4 := by
  rintro ⟨r, k, hr, hk, hb, h1, -, -, h2⟩
  have h0 : r = 0 := by simpa [State.reset, State.resetOf, State.reg, documentParams] using h1
  have h4 : k = 4 := by
    rcases h2 with h | ⟨-, h⟩ <;> simp [State.reset, State.resetOf, State.reg, documentParams] at h <;> omega
  subst h0 h4
  exact absurd hb (by decide)

theorem witness_DrwCollisionIsAPixelTurnedOff : ∃ t, Safety.Inv State.reset ∧ exec (.drw 0 1 5) State.reset = .next t ∧
    State.reset.dataAddr + (5 : Fin 16).val ≤ State.reset.params.memSize := ⟨_, inv_reset, rfl, by decide⟩

/-- Glyph 0 drawn twice at (0, 0): the first draw meets only Off pixels and lights one, the second runs, in a state whose
memory agrees on the sprite's bytes only. -/
theorem witness_DrwTwiceRestoresTheScreen : ∃ t s' u, Safety.Inv State.reset ∧ exec (.drw 0 1 5) State.reset = .next t ∧
    State.reset.dataAddr + (5 : Fin 16).val ≤ State.reset.params.memSize ∧ s'.params = State.reset.params ∧
    s'.reg 0 = State.reset.reg 0 ∧ s'.reg 1 = State.reset.reg 1 ∧ s'.i = State.reset.i ∧
    (∀ k < (5 : Fin 16).val, s'.byte (State.reset.dataAddr + k) = State.reset.byte (State.reset.dataAddr + k)) ∧
    s'.fb = t.fb ∧ exec (.drw 0 1 5) s' = .next u ∧ t.reg 15 = 0 ∧ t.fb ≠ State.reset.fb ∧ s'.mem ≠ State.reset.mem :=
  ⟨_, { withBytes State.reset 0x300 [0x01] with fb := _ }, _, inv_reset, rfl, by decide, by decide, by decide, by decide,
    by decide, by decide, rfl, rfl, by decide, by decide, by decide⟩

theorem witness_DrwChangesOnlyTheSpritesPlace : ∃ t, Safety.Inv State.reset ∧ exec (.drw 0 1 5) State.reset = .next t ∧
    t.fb.pixel 0 0 ≠ State.reset.fb.pixel 0 0 := ⟨_, inv_reset, rfl, by decide⟩

theorem witness_KeySkips : (5 : Fin 16).val = ((withRegs [(0, 0x15)]).reg 0).toNat % 16 ∧
    (press State.reset 5).key[(5 : Fin 16)] = true ∧ State.reset.key[(5 : Fin 16)] = false := by decide

theorem witness_LdKeyTakesTheLeastOrHolds_none : ∀ k : Fin 16, State.reset.key[k] = false := by decide
theorem witness_LdKeyTakesTheLeastOrHolds_some :
    ((press State.reset 0).key[(0 : Fin 16)] = true ∧ ∀ j : Fin 16, j < 0 → (press State.reset 0).key[j] = false) ∧
    ((press State.reset 15).key[(15 : Fin 16)] = true ∧ ∀ j : Fin 16, j < 15 → (press State.reset 15).key[j] = false) := by
  decide

theorem witness_LdBStoresThreeDigits_overrun :
    ({ State.reset with i := 0x0FFD } : State).dataAddr + 3 > State.reset.params.memSize := by decide
theorem witness_LdBStoresThreeDigits_runs :
    ({ State.reset with i := 0x0FFC } : State).dataAddr + 3 ≤ State.reset.params.memSize ∧
    Safety.Inv { State.reset with i := 0x0FFC } := by decide

theorem witness_StoreRegisterRange_overrun :
    ({ State.reset with i := 0x0FF0 } : State).dataAddr + ((15 : Reg).val + 1) > State.reset.params.memSize := by decide
theorem witness_StoreRegisterRange_runs :
    ({ State.reset with i := 0x0FEF } : State).dataAddr + ((15 : Reg).val + 1) ≤ State.reset.params.memSize ∧
    Safety.Inv { State.reset with i := 0x0FEF } := by decide

theorem witness_LoadRegisterRange_overrun :
    ({ State.reset with i := 0x0FFE } : State).dataAddr + ((1 : Reg).val + 1) > State.reset.params.memSize := by decide
theorem witness_LoadRegisterRange_runs :
    ({ State.reset with i := 0x0FFE } : State).dataAddr + ((0 : Reg).val + 1) ≤ State.reset.params.memSize := by decide

theorem witness_StepRunsTheDecodedInstruction : (holding 0x22 0x10).fault = none ∧
    (holding 0x22 0x10).pc.toNat + 1 < State.reset.params.memSize ∧ Claims.WordAtPc (holding 0x22 0x10) 0x2210 ∧
    decodeWord 0x2210 = some (.call 0x210) := ⟨by decide, by decide, by unfold Claims.WordAtPc; decide, by decide⟩
/-- The last address at which an instruction executes. -/
theorem witness_StepRunsTheDecodedInstruction_top :
    ({ State.reset with pc := 0xFFD, mem := [(0xFFD, 0x6A), (0xFFE, 0x55)] } : State).pc.toNat + 1 <
      State.reset.params.memSize ∧
    Claims.WordAtPc { State.reset with pc := 0xFFD, mem := [(0xFFD, 0x6A), (0xFFE, 0x55)] } 0x6A55 ∧
    decodeWord 0x6A55 = some (.ldByte 10 0x55) := ⟨by decide, by unfold Claims.WordAtPc; decide, by decide⟩

theorem witness_FetchPastTheTopLatches : ({ State.reset with pc := 0xFFE } : State).fault = none ∧
    ({ State.reset with pc := 0xFFE } : State).pc.toNat + 1 ≥ State.reset.params.memSize ∧
    ({ State.reset with pc := 0xFFF } : State).pc.toNat + 1 ≥ State.reset.params.memSize := by decide

theorem witness_IllegalWordLatchesDecodeFailure : (holding 0x50 0x01).fault = none ∧
    (holding 0x50 0x01).pc.toNat + 1 < State.reset.params.memSize ∧ Claims.WordAtPc (holding 0x50 0x01) 0x5001 ∧
    decodeWord 0x5001 = none := ⟨by decide, by decide, by unfold Claims.WordAtPc; decide, by decide⟩

theorem witness_HaltedStepChangesNothing :
    ({ State.reset with fault := some (.memoryOverrun 0x200) } : State).fault = some (.memoryOverrun 0x200) := by decide

theorem witness_FaultingStepChangesOnlyTheLatch : ∃ t r, (holding 0x50 0x01).fault = none ∧
    step (holding 0x50 0x01) = .next t ∧ t.fault = some r := ⟨_, _, rfl, rfl, rfl⟩

/-- A fetch past the top. -/
theorem witness_FaultConditions_fetch : ∃ t, ({ State.reset with pc := 0xFFE } : State).fault = none ∧
    step { State.reset with pc := 0xFFE } = .next t ∧
    ({ State.reset with pc := 0xFFE } : State).pc.toNat + 1 ≥ State.reset.params.memSize := ⟨_, rfl, rfl, by decide⟩
/-- An illegal word, a CALL, a RET, a DRW, an LD B, an LD [I],Vx, an LD Vx,[I] and a word with no check, each stepped
from a state with no fault, whose word at pc it is, with its bytes in memory. -/
theorem witness_FaultConditions_words :
    ([(0x50, 0x01), (0x22, 0x10), (0x00, 0xEE), (0xD0, 0x15), (0xF0, 0x33), (0xF1, 0x55), (0xF1, 0x65), (0x60, 0x01)] :
      List (Byte × Byte)).all (fun p => (holding p.1 p.2).fault == none && (answer (step (holding p.1 p.2))).isSome &&
        decide ((holding p.1 p.2).pc.toNat + 1 < State.reset.params.memSize) &&
        (holding p.1 p.2).byte (holding p.1 p.2).pc.toNat == p.1 &&
        (holding p.1 p.2).byte ((holding p.1 p.2).pc.toNat + 1) == p.2) = true := by decide

/-- One state for each way of updating pc: a target, a return, an offset, a skip, hold, the key taken, advance. -/
theorem witness_PcUpdateByInstruction :
    ([(.jp 0x204, State.reset), (.call 0x210, State.reset), (.ret, { State.reset with sp := 1 }), (.jpV0 0x300, State.reset),
      (.seByte 0 0, State.reset), (.ldVxK 0, State.reset), (.ldVxK 0, press State.reset 3), (.cls, State.reset)] :
      List (Instr × State)).all (fun p => p.2.fault == none && (answer (exec p.1 p.2)).any fun t => t.fault == none) = true := by
  decide

theorem witness_OnlyTwoInstructionsWriteMemory : ∃ t, exec .cls State.reset = .next t := ⟨_, rfl⟩
theorem witness_OnlyCallAndRetTouchTheStack : (∃ t, exec (.call 0x210) State.reset = .next t) ∧ (1 : Fin 16) ≠ State.reset.sp ∧
    (∃ t, exec .ret { State.reset with sp := 1 } = .next t) ∧ ∃ t, exec .cls State.reset = .next t :=
  ⟨⟨_, rfl⟩, by decide, ⟨_, rfl⟩, ⟨_, rfl⟩⟩
theorem witness_TimersAndKeysAreTheHosts : (∃ t, exec (.ldDtVx 0) State.reset = .next t) ∧
    (∃ t, exec (.ldStVx 0) State.reset = .next t) ∧ ∃ t, exec .cls State.reset = .next t := ⟨⟨_, rfl⟩, ⟨_, rfl⟩, ⟨_, rfl⟩⟩
theorem witness_OnlyClsAndDrwTouchTheScreen : (∃ t, exec (.drw 0 1 5) State.reset = .next t) ∧ State.reset.dirty = true ∧
    ∃ t, exec (.sys 0x000) State.reset = .next t := ⟨⟨_, rfl⟩, rfl, ⟨_, rfl⟩⟩
theorem witness_WhichInstructionsWriteVf : State.reset.fault = none ∧
    (∃ t, exec (.addReg 0 1) State.reset = .next t ∧ t.fault = none) ∧
    (∃ t, exec (.ldByte 14 0x37) State.reset = .next t ∧ t.fault = none ∧ (14 : Reg) ≠ 15) ∧
    ∃ t, exec (.jp 0x204) State.reset = .next t ∧ t.fault = none :=
  ⟨rfl, ⟨_, rfl, rfl⟩, ⟨_, rfl, rfl, by decide⟩, ⟨_, rfl, rfl⟩⟩

/-- T17: V0 and V1 hold 0x6A, 0x42; I holds the address of the next instruction. -/
def storing : State := { withRegs [(0, 0x6A), (1, 0x42)] with i := 0x0202 }
/-- The word stored is 6A42, which decodes. -/
theorem witness_StoreIsFetchedNext_decodes : ∃ (t : State) (stored : Nat → Byte), Safety.Inv storing ∧
    storing.fault = none ∧ exec (.ldMemVx 1) storing = .next t ∧ t.fault = none ∧
    (storing.pc + 2).toNat + 1 < storing.params.memSize ∧ (∀ r : Reg, r ≤ 1 → stored r.val = storing.reg r) ∧
    (0x6A42 : Word).toNat = 256 * (Claims.byteAfterStore storing 2 stored (storing.pc + 2).toNat).toNat +
      (Claims.byteAfterStore storing 2 stored ((storing.pc + 2).toNat + 1)).toNat ∧
    decodeWord 0x6A42 = some (.ldByte 10 0x42) :=
  ⟨_, fun k => if k = 0 then 0x6A else 0x42, by decide, by decide, rfl, rfl, by decide, by decide, by decide, by decide⟩
/-- The digits of 254 at 0x201 make the next word 0504. -/
theorem witness_StoreIsFetchedNext_digits : ∃ (t : State) (stored : Nat → Byte),
    Safety.Inv { withRegs [(0, 0xFE)] with i := 0x0201 } ∧
    exec (.ldB 0) { withRegs [(0, 0xFE)] with i := 0x0201 } = .next t ∧ t.fault = none ∧
    (stored 0).toNat = 254 / 100 ∧ (stored 1).toNat = 254 / 10 % 10 ∧ (stored 2).toNat = 254 % 10 ∧
    (0x0504 : Word).toNat = 256 * (Claims.byteAfterStore { withRegs [] with i := 0x0201 } 3 stored 0x202).toNat +
      (Claims.byteAfterStore { withRegs [] with i := 0x0201 } 3 stored 0x203).toNat ∧
    decodeWord 0x0504 = some (.sys 0x504) :=
  ⟨_, fun k => if k = 0 then 2 else if k = 1 then 5 else 4, by decide, rfl, rfl, by decide, by decide, by decide,
    by decide, by decide⟩
/-- V0 = 0x50 stored at 0x202, before the 0x01 that memory holds at 0x203: the next word is 5001, which is illegal. -/
theorem witness_StoreIsFetchedNext_illegal : ∃ (t : State) (stored : Nat → Byte),
    Safety.Inv { withBytes (withRegs [(0, 0x50)]) 0x203 [0x01] with i := 0x0202 } ∧
    exec (.ldMemVx 0) { withBytes (withRegs [(0, 0x50)]) 0x203 [0x01] with i := 0x0202 } = .next t ∧ t.fault = none ∧
    stored 0 = (withRegs [(0, 0x50)]).reg 0 ∧
    (0x5001 : Word).toNat =
      256 * (Claims.byteAfterStore { withBytes State.reset 0x203 [0x01] with i := 0x0202 } 1 stored 0x202).toNat +
        (Claims.byteAfterStore { withBytes State.reset 0x203 [0x01] with i := 0x0202 } 1 stored 0x203).toNat ∧
    decodeWord 0x5001 = none :=
  ⟨_, fun _ => 0x50, by decide, rfl, rfl, by decide, by decide, by decide⟩

/-- F10: the word 1200 at 0x200. -/
theorem witness_FinishedIsAFixedPoint : Safety.Finished (holding 0x12 0x00) := by decide

theorem witness_StepKeepsTheInvariant : ∃ t, Safety.Inv (holding 0xF0 0x33) ∧ step (holding 0xF0 0x33) = .next t :=
  ⟨_, by decide, rfl⟩
theorem witness_EventsKeepTheInvariant : Safety.Inv (holding 0xF0 0x33) ∧
    (answer (handleAll [.step 0, .tick 1, .getSnapshot] (holding 0xF0 0x33))).isSome = true := by decide
/-- The document's values, and the smallest legal screen. -/
theorem witness_ResetMeetsTheInvariant : validParams documentParams = true ∧
    validParams { documentParams with width := 8, height := 8 } = true := by decide

/-- 00E0 selects rows 0 (CLS) and 2 (SYS). -/
theorem witness_DecoderIsTheTable : (0x00E0#16 &&& (opcodeTable[0]).mask = (opcodeTable[0]).pattern) ∧
    0x00E0#16 &&& (opcodeTable[2]).mask = (opcodeTable[2]).pattern := by decide

theorem witness_DecodeOfEncode : (Instr.drw 15 0 15).WellFormed ∧ (Instr.sys 0xFFF).WellFormed := by decide
theorem witness_EncodeOfDecode : decodeWord 0xDF0F = some (.drw 15 0 15) ∧ decodeWord 0x0FFF = some (.sys 0xFFF) := by decide

theorem witness_ResetChosenValues : 80 ≤ 80 ∧ 80 ≤ 0xFFE := by decide

theorem witness_LoadPlacesTheProgram :
    (List.replicate 3583 (0x12 : Byte)).length ≤ State.reset.params.memSize - 0x200 ∧
    3582 < (List.replicate 3583 (0x12 : Byte)).length ∧ 0x1FF < 0x200 ∧
    0x200 + (List.replicate 3583 (0x12 : Byte)).length ≤ 0xFFF := by
  rw [List.length_replicate]; decide
theorem witness_TooLongProgramsAreRejected :
    (List.replicate 3584 (0x12 : Byte)).length > State.reset.params.memSize - 0x200 ∧
    (List.replicate 3583 (0x12 : Byte)).length = State.reset.params.memSize - 0x200 ∧
    ∃ t, State.reset.fault = none ∧ step State.reset = .next t :=
  ⟨by rw [List.length_replicate]; decide, by rw [List.length_replicate]; decide, _, rfl, rfl⟩

theorem witness_SnapshotOncePerDirty : State.reset.dirty = true ∧ ({ State.reset with dirty := false } : State).dirty = false := by
  decide

theorem witness_StepEventUsesItsByte : (holding 0xC0 0x0F).fault = none ∧
    (holding 0xC0 0x0F).pc.toNat + 1 < State.reset.params.memSize ∧ Claims.WordAtPc (holding 0xC0 0x0F) 0xC00F ∧
    decodeWord 0xC00F = some (.rnd 0 0x0F) := ⟨by decide, by decide, by unfold Claims.WordAtPc; decide, by decide⟩

/-- The word at pc is CALL, so no RND is executed. -/
theorem witness_StepEventUsesItsByte_no_rnd :
    ∀ w, Claims.WordAtPc (holding 0x22 0x10) w → ∀ x kk, decodeWord w ≠ some (.rnd x kk) := by
  intro w h x kk
  have h2 : w = 0x2210 := BitVec.eq_of_toNat_eq h
  subst h2
  exact fun e => Instr.noConfusion (Option.some.inj ((show decodeWord 0x2210 = some (.call 0x210) by decide).symm.trans e))

theorem witness_OnlyResetLoadLeavesTheFault :
    ({ State.reset with fault := some (.memoryOverrun 0x200) } : State).fault = some (.memoryOverrun 0x200) ∧
    (∀ e ∈ [HostEvent.step 0, .tick 2, .keyEvent 4 .pressed, .getSnapshot, .readStatus], Safety.isResetLoad e = false) ∧
    (answer (handleAll [.step 0, .tick 2, .keyEvent 4 .pressed, .getSnapshot, .readStatus]
      { State.reset with fault := some (.memoryOverrun 0x200) })).isSome = true := by decide

end Sys2Proof.Tests
end

section
/-!
PROOFS. What a step can do to the parameters, the memory and the screen, and from that the invariant of O43; the state
after reset (O45, O51).
-/
namespace Sys2Proof.Machine

/-! ### The instructions with two endings -/

/-- RET pops, or latches StackUnderflow where the stack is empty (R112). -/
theorem execRet_cases (s : State) :
    (s.sp = 0 ∧ execRet s = .next (s.raise (.stackUnderflow s.pc))) ∨ (s.sp ≠ 0 ∧ execRet s = .next s.pop) := by
  unfold execRet raise
  split
  · exact .inl ⟨‹_›, rfl⟩
  · exact .inr ⟨‹_›, rfl⟩

/-- CALL pushes and jumps, or latches StackOverflow where the stack is full (R114). -/
theorem execCall_cases (nnn : Addr) (s : State) :
    (Config.stackCap ≤ s.sp.val ∧ execCall nnn s = .next (s.raise (.stackOverflow s.pc))) ∨
    (s.sp.val < Config.stackCap ∧ execCall nnn s = .next ((s.push (s.pc + 2)).setPc nnn)) := by
  unfold execCall raise
  split
  · exact .inl ⟨‹_›, rfl⟩
  · exact .inr ⟨Nat.lt_of_not_le ‹_›, rfl⟩

/-- LD Vx, K takes the least pressed key, or holds where none is pressed (R172). -/
theorem execLdVxK_cases (x : Reg) (s : State) :
    (∃ k, s.leastKey = some k ∧ execLdVxK x s = .next (s.setReg x (BitVec.ofNat 8 k.val)).advance) ∨
    (s.leastKey = none ∧ execLdVxK x s = .next s) := by
  unfold execLdVxK
  split
  · exact .inl ⟨_, ‹_›, rfl⟩
  · exact .inr ⟨‹_›, rfl⟩

/-! ### What a step can do to the parameters, the memory and the screen -/

/-- All that a step can do to the three pieces of state the invariant speaks of: the parameters stay, memory is kept or
some bytes are written to it, and the screen is kept, cleared or has a sprite drawn on it. -/
structure StateEffect (s t : State) : Prop where
  params : t.params = s.params
  mem : t.mem = s.mem ∨ ∃ a bytes, t.mem = s.mem.writeBytes s.params a bytes
  fb : t.fb = s.fb ∨ t.fb = Frame.off s.params ∨
    ∃ mode xv yv bytes, t.fb = (drawSprite s.params mode s.fb xv yv bytes).fb

variable {s t : State}

theorem StateEffect.of_same (hp : t.params = s.params) (hm : t.mem = s.mem) (hf : t.fb = s.fb) : StateEffect s t :=
  ⟨hp, .inl hm, .inl hf⟩

/-- A fault entry changes none of the three (R208). -/
theorem StateEffect.of_raise (s : State) (r : Fault) : StateEffect s (s.raise r) := .of_same rfl rfl rfl

/-- A range-checked instruction has the effect of what runs after the check. -/
theorem withRange_effect {n : Nat} {f : Nat → State} (hf : StateEffect s (f s.dataAddr)) :
    ∃ t, withRange s n (fun a => .next (f a)) = .next t ∧ StateEffect s t := by
  rcases withRange_cases s n fun a => .next (f a) with ⟨-, e⟩ | ⟨-, e⟩
  · exact ⟨_, e, hf⟩
  · exact ⟨_, e, .of_raise s _⟩

/-- By the instruction: only CLS, DRW and the two stores reach memory or the screen. -/
theorem exec_effect (i : Instr) (s : State) : ∃ t, exec i s = .next t ∧ StateEffect s t := by
  cases i with
  | cls => exact ⟨_, rfl, rfl, .inl rfl, .inr (.inl rfl)⟩
  | drw x y n =>
    show ∃ t, execDrw x y n s = .next t ∧ StateEffect s t
    refine withRange_effect ?_
    exact ⟨rfl, .inl rfl, .inr (.inr ⟨_, _, _, _, rfl⟩)⟩
  | ldB x =>
    show ∃ t, execLdB x s = .next t ∧ StateEffect s t
    refine withRange_effect ?_
    exact ⟨rfl, .inr ⟨_, _, rfl⟩, .inl rfl⟩
  | ldMemVx x =>
    show ∃ t, execLdMemVx x s = .next t ∧ StateEffect s t
    refine withRange_effect ?_
    exact ⟨rfl, .inr ⟨_, _, rfl⟩, .inl rfl⟩
  | ldVxMem x =>
    show ∃ t, execLdVxMem x s = .next t ∧ StateEffect s t
    refine withRange_effect ?_
    exact .of_same (by simp) (by simp) (by simp)
  | ret =>
    rcases execRet_cases s with ⟨-, e⟩ | ⟨-, e⟩
    · exact ⟨_, e, .of_raise s _⟩
    · exact ⟨_, e, .of_same rfl rfl rfl⟩
  | call nnn =>
    rcases execCall_cases nnn s with ⟨-, e⟩ | ⟨-, e⟩
    · exact ⟨_, e, .of_raise s _⟩
    · exact ⟨_, e, .of_same rfl rfl rfl⟩
  | ldVxK x =>
    rcases execLdVxK_cases x s with ⟨k, -, e⟩ | ⟨-, e⟩
    · exact ⟨_, e, .of_same rfl rfl rfl⟩
    · exact ⟨_, e, .of_same rfl rfl rfl⟩
  -- what is left answers one next state, made by register, timer and pc updates only
  | _ => exact ⟨_, rfl, .of_same (by simp) (by simp) (by simp)⟩

/-- Every step answers a next state: unchanged where halted, a fault entry, or one instruction's (R100, R107). -/
theorem step_effect (s : State) : ∃ t, step s = .next t ∧ StateEffect s t := by
  unfold step
  cases nextPhase s with
  | halted => exact ⟨s, rfl, .of_same rfl rfl rfl⟩
  | raises r => exact ⟨_, rfl, .of_raise s r⟩
  | executes i => exact exec_effect i s

/-- Writing bytes keeps memory's canonical form, and clearing or drawing keeps the screen's shape. -/
theorem StateEffect.inv (h : StateEffect s t) (hs : Safety.Inv s) : Safety.Inv t := by
  obtain ⟨hvalid, hmem, hfb⟩ := hs
  refine ⟨by rw [h.params]; exact hvalid, ?_, ?_⟩
  · rw [h.params]
    rcases h.mem with e | ⟨a, bytes, e⟩
    · rw [e]; exact hmem
    · rw [e]; exact Memory.wf_writeBytes hmem a bytes
  · rw [h.params]
    rcases h.fb with e | e | ⟨mode, xv, yv, bytes, e⟩
    · rw [e]; exact hfb
    · rw [e]; exact Frame.wf_off
    · rw [e]; exact (drawSprite_spec hvalid mode hfb xv yv bytes).1

/-- Settles O43: what a step can do to the parameters, memory and screen keeps the invariant. -/
theorem stepKeepsTheInvariant : Obligations.StepKeepsTheInvariant := by
  intro s t hs hstep
  obtain ⟨t', hstep', heffect⟩ := step_effect s
  obtain rfl : t' = t := Host.Outcome.next.inj (hstep'.symm.trans hstep)
  exact ⟨heffect.inv hs, heffect.params⟩

/-! ### The state after reset -/

/-- With no byte listed, every byte reads as its reset byte (R51). -/
@[simp] theorem byte_resetOf (p : Config.Params) (a : Nat) : (State.resetOf p).byte a = resetByte p a := rfl

/-- Below 80 the reset byte is the font's (R32). -/
theorem resetByte_font (p : Config.Params) (k : Fin Config.fontBytes) : resetByte p k.val = p.font[k] := by
  simp [resetByte]

theorem inv_resetOf {p : Config.Params} (hp : validParams p = true) : Safety.Inv (State.resetOf p) :=
  ⟨hp, rfl, Frame.wf_off⟩

/-- Settles O45: memory lists nothing after reset, and the screen is the one with every pixel Off. -/
theorem resetMeetsTheInvariant : Obligations.ResetMeetsTheInvariant :=
  ⟨fun _ => inv_resetOf, inv_resetOf (by decide)⟩

/-- Settles O51: the fields by the definition of the reset state, the font by its reset bytes. -/
theorem resetStatedValues : Obligations.ResetStatedValues := by
  refine ⟨fun p => ⟨rfl, rfl, rfl, fun k => ?_⟩, rfl, rfl, rfl, rfl, by decide⟩
  rw [byte_resetOf, resetByte_font]

end Sys2Proof.Machine
end

section
/-!
PROOFS. The four range-checked instructions: what they decode from, when they latch MemoryOverrun, and what they write
otherwise (O18, O25, O26, O27).
-/
namespace Sys2Proof.Machine

variable {s : State}

/-! ### The words (R73) -/

theorem decodeWord_familyD (x y : Reg) (n : Nibble) :
    decodeWord (wordXYN 0xD x y n) = some (.drw x y n.toFin) := by
  simp [decodeWord]

theorem decodeWord_familyF (x : Reg) (kk : Byte) : decodeWord (wordXKK 0xF x kk) = decodeFamilyF x kk := by
  simp [decodeWord]

/-! ### The range check (R56) -/

theorem exec_drw (x y : Reg) (n : Fin 16) (s : State) : exec (.drw x y n) s = withRange s n.val fun a =>
    .next (s.drawn (drawSprite s.params Config.drawXOverflow s.fb (s.reg x) (s.reg y) (s.bytes a n.val))) := rfl

theorem exec_ldB (x : Reg) (s : State) : exec (.ldB x) s = withRange s 3 fun a =>
    .next (s.store a (bcdDigits (s.reg x))).advance := rfl

theorem exec_ldMemVx (x : Reg) (s : State) : exec (.ldMemVx x) s = withRange s (x.val + 1) fun a =>
    .next (s.store a (s.regsUpTo x)).advance := rfl

theorem exec_ldVxMem (x : Reg) (s : State) : exec (.ldVxMem x) s = withRange s (x.val + 1) fun a =>
    .next (s.setRegs x (s.bytes a (x.val + 1))).advance := rfl

variable {i : Instr} {n : Nat} {f : Nat → State}

/-- A range-checked instruction latches MemoryOverrun where its range leaves memory. -/
theorem exec_overrun (hi : exec i s = withRange s n fun a => .next (f a)) (h : s.dataAddr + n > s.params.memSize) :
    exec i s = .next (Claims.latched s (.memoryOverrun s.pc)) :=
  hi.trans (withRange_of_gt h _)

/-- A range-checked instruction runs where its range lies in memory. -/
theorem exec_inRange (hi : exec i s = withRange s n fun a => .next (f a)) (h : s.dataAddr + n ≤ s.params.memSize) :
    exec i s = .next (f s.dataAddr) :=
  hi.trans (withRange_of_le h _)

/-! ### Stores and loads -/

/-- The three decimal digits, one by one (R183). -/
theorem toNat_bcdDigits (b : Byte) :
    (bcdDigits b)[0].toNat = b.toNat / 100 ∧ (bcdDigits b)[1].toNat = b.toNat / 10 % 10 ∧
    (bcdDigits b)[2].toNat = b.toNat % 10 := by
  have := b.isLt
  simp only [bcdDigits, List.getElem_cons_zero, List.getElem_cons_succ, BitVec.toNat_ofNat]
  omega

/-- Settles O25: the range check, then the store of the three digits. -/
theorem ldBStoresThreeDigits : Obligations.LdBStoresThreeDigits := by
  intro x s
  refine ⟨decodeWord_familyF x 0x33, dataAddr_eq s, exec_overrun (exec_ldB x s), fun h hw => ?_⟩
  have hin {j : Nat} (hj : j < (bcdDigits (s.reg x)).length) := byte_store_inside hw (bs := bcdDigits (s.reg x)) h hj
  obtain ⟨h0, h1, h2⟩ := toNat_bcdDigits (s.reg x)
  refine ⟨_, exec_inRange (exec_ldB x s) h, ?_, ?_, ?_, fun c hc => byte_store_outside s _ _ hc, rfl, fun r => rfl,
    rfl, ⟨rfl, rfl⟩, ⟨rfl, rfl⟩, ⟨rfl, rfl⟩, ⟨rfl, rfl⟩, rfl, rfl, rfl⟩
  · exact (congrArg BitVec.toNat (hin (j := 0) (by simp))).trans h0
  · exact (congrArg BitVec.toNat (hin (j := 1) (by simp))).trans h1
  · exact (congrArg BitVec.toNat (hin (j := 2) (by simp))).trans h2

/-- Settles O26: the range check, then the store of V0 to Vx. -/
theorem storeRegisterRange : Obligations.StoreRegisterRange := by
  intro x s
  refine ⟨decodeWord_familyF x 0x55, dataAddr_eq s, exec_overrun (exec_ldMemVx x s), fun h hw => ?_⟩
  have hlen := length_regsUpTo s x
  refine ⟨_, exec_inRange (exec_ldMemVx x s) h, fun r hr => ?_,
    fun c hc => byte_store_outside s _ _ (by rwa [hlen]), rfl, fun r => rfl, rfl, ⟨rfl, rfl⟩,
    ⟨rfl, rfl⟩, ⟨rfl, rfl⟩, ⟨rfl, rfl⟩, rfl, rfl, rfl⟩
  have hr' : r.val < (s.regsUpTo x).length := by rw [hlen]; exact Nat.lt_succ_of_le hr
  rw [State.byte_advance, byte_store_inside hw (by rwa [hlen]) hr']
  exact getElem_regsUpTo s x r hr'

/-- Writing some registers and advancing changes nothing else. -/
theorem onlyRegsPc_setRegs (s : State) (x : Reg) (bytes : List Byte) :
    Claims.OnlyRegsPc s (s.setRegs x bytes).advance := by
  simp [Claims.OnlyRegsPc, Claims.SameStack, Claims.SameTimers, Claims.SameMem, Claims.SameScreen, Claims.SameLatches,
    Claims.SameOwn]

/-- Settles O27: the range check, then V0 to Vx from the bytes read. -/
theorem loadRegisterRange : Obligations.LoadRegisterRange := by
  intro x s
  refine ⟨decodeWord_familyF x 0x65, dataAddr_eq s, exec_overrun (exec_ldVxMem x s), fun h => ?_⟩
  refine ⟨_, exec_inRange (exec_ldVxMem x s) h, fun r => ?_, by simp, onlyRegsPc_setRegs s x _⟩
  rw [State.reg_advance, State.reg_setRegs]
  split
  · next hr => exact getD_bytes s _ (Nat.lt_succ_of_le hr)
  · rfl

/-! ### Drawing -/

/-- The pixels the model flips are those under a 1 bit of the sprite (R160, R161). -/
theorem mem_spritePixels_iff_spriteBitOn (hp : validParams s.params = true) (mode : Config.XOverflow) (x y : Reg)
    (n row col : Nat) :
    (row, col) ∈ spritePixels s.params mode ((s.reg x).toNat % s.params.width) ((s.reg y).toNat % s.params.height) 0
      (s.bytes s.dataAddr n) ↔ Claims.SpriteBitOn mode s x y n row col := by
  simp only [validParams, Bool.and_eq_true, decide_eq_true_eq] at hp
  have hx : (s.reg x).toNat % s.params.width < s.params.width := Nat.mod_lt _ (by omega)
  rw [mem_spritePixels]
  constructor
  · rintro ⟨r, k, hr, hrow, hlt, hk, hbit, hcol⟩
    rw [getElem_bytes] at hbit
    rw [columnTarget_eq_some] at hcol
    rw [length_bytes] at hr
    rw [Nat.zero_add] at hrow
    refine ⟨r, k, hr, hk, hbit, hrow, hlt, by omega, ?_⟩
    rcases hcol with ⟨-, e⟩ | ⟨-, hmode, e⟩
    · exact .inl e
    · exact .inr ⟨hmode, e⟩
  · rintro ⟨r, k, hr, hk, hbit, hrow, hlt, hw, hcol⟩
    refine ⟨r, k, by rwa [length_bytes], by rwa [Nat.zero_add], hlt, hk, by rwa [getElem_bytes], ?_⟩
    rw [columnTarget_eq_some]
    rcases hcol with e | ⟨hmode, e⟩
    · exact .inl ⟨by omega, e⟩
    · exact .inr ⟨by omega, hmode, e⟩

/-- Settles O18: the range check, then the drawing of the sprite's pixels. -/
theorem drwFlipsPixelsAndReports : Obligations.DrwFlipsPixelsAndReports := by
  intro x y n s
  refine ⟨decodeWord_familyD x y (BitVec.ofFin n), dataAddr_eq s, exec_overrun (exec_drw x y n s), ?_⟩
  rintro h ⟨hp, -, hf⟩
  obtain ⟨-, hpix, hcoll⟩ :=
    drawSprite_spec hp Config.drawXOverflow hf (s.reg x) (s.reg y) (s.bytes s.dataAddr n.val)
  have hmem := mem_spritePixels_iff_spriteBitOn hp Config.drawXOverflow x y n.val
  simp only [hmem] at hcoll
  refine ⟨_, exec_inRange (exec_drw x y n s) h, fun row col hon => ?_, fun row col hoff => ?_, fun hon => ?_,
    fun hoff => ?_, fun r hr => ?_, rfl, rfl, rfl, ⟨rfl, rfl⟩, ⟨rfl, rfl⟩, fun a => rfl, ⟨rfl, rfl⟩, rfl, rfl, rfl⟩
  · rw [State.drawn_fb, hpix, if_pos ((hmem row col).2 hon)]
  · rw [State.drawn_fb, hpix, if_neg (mt (hmem row col).1 hoff)]
  · rw [State.reg_drawn, if_pos rfl, hcoll.2 hon]
    rfl
  · have hno : (drawSprite s.params Config.drawXOverflow s.fb (s.reg x) (s.reg y)
        (s.bytes s.dataAddr n.val)).collided = false := by
      rw [← Bool.not_eq_true, hcoll]
      rintro ⟨row, col, hon, hpixel⟩
      exact absurd hpixel (by simp [hoff row col hon])
    rw [State.reg_drawn, if_pos rfl, hno]
    rfl
  · rw [State.reg_drawn, if_neg hr]

end Sys2Proof.Machine
end

section
/-!
PROOFS. What every instruction leaves of the stack, the timers, the keys, the screen and VF (O32, O37 to O40).
-/
namespace Sys2Proof.Machine

variable {s t : State}

/-! ### The two endings of an instruction, read off its next state -/

/-- A range-checked instruction answers a fault entry or what runs after the check. -/
theorem exec_range_next {i : Instr} {n : Nat} {f : Nat → State}
    (hi : exec i s = withRange s n fun a => .next (f a)) (h : exec i s = .next t) :
    t = s.raise (.memoryOverrun s.pc) ∨ t = f s.dataAddr := by
  rcases withRange_cases s n fun a => .next (f a) with ⟨-, e⟩ | ⟨-, e⟩
  · exact .inr (Host.Outcome.next.inj (h.symm.trans (hi.trans e)))
  · exact .inl (Host.Outcome.next.inj (h.symm.trans (hi.trans e)))

theorem exec_ret_next (h : exec .ret s = .next t) : t = s.raise (.stackUnderflow s.pc) ∨ t = s.pop := by
  rcases execRet_cases s with ⟨-, e⟩ | ⟨-, e⟩
  · exact .inl (Host.Outcome.next.inj (h.symm.trans e))
  · exact .inr (Host.Outcome.next.inj (h.symm.trans e))

theorem exec_call_next {nnn : Addr} (h : exec (.call nnn) s = .next t) :
    t = s.raise (.stackOverflow s.pc) ∨ s.sp.val < Config.stackCap ∧ t = (s.push (s.pc + 2)).setPc nnn := by
  rcases execCall_cases nnn s with ⟨-, e⟩ | ⟨hsp, e⟩
  · exact .inl (Host.Outcome.next.inj (h.symm.trans e))
  · exact .inr ⟨hsp, Host.Outcome.next.inj (h.symm.trans e)⟩

theorem exec_ldVxK_next {x : Reg} (h : exec (.ldVxK x) s = .next t) :
    t = s ∨ ∃ b, t = (s.setReg x b).advance := by
  rcases execLdVxK_cases x s with ⟨k, -, e⟩ | ⟨-, e⟩
  · exact .inr ⟨_, Host.Outcome.next.inj (h.symm.trans e)⟩
  · exact .inl (Host.Outcome.next.inj (h.symm.trans e))

/-! ### The stack, the timers, the keys and the screen -/

/-- What an instruction leaves of them, and which instructions are the exceptions (R29, R30, R33 to R35). -/
structure ExecFrame (i : Instr) (s t : State) : Prop where
  stack : i = .ret ∨ (∃ nnn, i = .call nnn) ∨ Claims.SameStack s t
  dt : (∃ x, i = .ldDtVx x) ∨ t.dt = s.dt
  st : (∃ x, i = .ldStVx x) ∨ t.st = s.st
  key : t.key = s.key
  screen : i = .cls ∨ (∃ x y n, i = .drw x y n) ∨ Claims.SameScreen s t
  dirty : s.dirty = true → t.dirty = true

/-- A fault entry changes none of them (R208). -/
theorem ExecFrame.of_raise (i : Instr) (s : State) (r : Fault) : ExecFrame i s (s.raise r) :=
  ⟨.inr (.inr ⟨rfl, rfl⟩), .inr rfl, .inr rfl, rfl, .inr (.inr ⟨rfl, rfl⟩), id⟩

/-- A range-checked instruction has the frame of what runs after the check. -/
theorem ExecFrame.of_range {i : Instr} {n : Nat} {f : Nat → State}
    (hi : exec i s = withRange s n fun a => .next (f a)) (h : exec i s = .next t)
    (hf : ExecFrame i s (f s.dataAddr)) : ExecFrame i s t := by
  rcases exec_range_next hi h with rfl | rfl
  · exact .of_raise i s _
  · exact hf

/-- By the instruction, each of its endings by the fields of the named updates. -/
theorem exec_frame {i : Instr} (h : exec i s = .next t) : ExecFrame i s t := by
  cases i with
  | ret =>
    rcases exec_ret_next h with rfl | rfl
    · exact .of_raise _ s _
    · constructor <;> simp [Claims.SameScreen]
  | call nnn =>
    rcases exec_call_next h with rfl | ⟨-, rfl⟩
    · exact .of_raise _ s _
    · constructor <;> simp [Claims.SameScreen]
  | ldVxK x =>
    rcases exec_ldVxK_next h with rfl | ⟨b, rfl⟩ <;> constructor <;> simp [Claims.SameStack, Claims.SameScreen]
  | drw x y n => exact .of_range (exec_drw x y n s) h (by constructor <;> simp [Claims.SameStack])
  | ldB x => exact .of_range (exec_ldB x s) h (by constructor <;> simp [Claims.SameStack, Claims.SameScreen])
  | ldMemVx x => exact .of_range (exec_ldMemVx x s) h (by constructor <;> simp [Claims.SameStack, Claims.SameScreen])
  | ldVxMem x => exact .of_range (exec_ldVxMem x s) h (by constructor <;> simp [Claims.SameStack, Claims.SameScreen])
  -- what is left has one ending
  | _ =>
    obtain rfl := Host.Outcome.next.inj h
    constructor <;> simp [Claims.SameStack, Claims.SameScreen]

/-- A push writes the slot at sp only (R29). -/
theorem push_stack_of_ne {j : Fin 16} (hj : j ≠ s.sp) (ret : Addr) : (s.push ret).stack[j] = s.stack[j] := by
  have hval : s.sp.val ≠ j.val := fun e => hj (Fin.ext e.symm)
  simp [hval]

/-- Settles O37: by the frame; CALL pushes below the cap only, so never to slot 15, and RET writes no slot. -/
theorem onlyCallAndRetTouchTheStack : Obligations.OnlyCallAndRetTouchTheStack := by
  intro i s t h
  have hframe := exec_frame h
  cases i with
  | call nnn =>
    rcases exec_call_next h with rfl | ⟨hsp, rfl⟩
    · exact ⟨rfl, fun j _ => rfl⟩
    · have h15 : (15 : Fin 16) ≠ s.sp := fun e => by rw [← e] at hsp; exact absurd hsp (by decide)
      exact ⟨push_stack_of_ne h15 _, fun j hj => push_stack_of_ne hj _⟩
  | ret => rcases exec_ret_next h with rfl | rfl <;> exact ⟨rfl, rfl⟩
  | _ =>
    obtain ⟨hsp, hstack⟩ : Claims.SameStack s t := by simpa using hframe.stack
    exact ⟨by rw [hstack], hsp, hstack⟩

/-- Settles O38: by the frame. -/
theorem timersAndKeysAreTheHosts : Obligations.TimersAndKeysAreTheHosts := by
  intro i s t h
  obtain ⟨-, hdt, hst, hkey, -, -⟩ := exec_frame h
  refine ⟨hkey, ?_⟩
  cases i with
  | ldDtVx x => simpa using hst
  | ldStVx x => simpa using hdt
  | _ => exact ⟨by simpa using hdt, by simpa using hst⟩

/-- Settles O39: by the frame. -/
theorem onlyClsAndDrwTouchTheScreen : Obligations.OnlyClsAndDrwTouchTheScreen := by
  intro i s t h
  obtain ⟨-, -, -, -, hscreen, hdirty⟩ := exec_frame h
  refine ⟨hdirty, ?_⟩
  cases i with
  | cls => trivial
  | drw x y n => trivial
  | _ => simpa using hscreen

/-- Settles O32: what a step can do says so. -/
theorem everyStepAnswersNext : Obligations.EveryStepAnswersNext := by
  intro s
  obtain ⟨t, hstep, -⟩ := step_effect s
  exact ⟨t, hstep⟩

/-! ### VF -/

/-- Settles O40, by the instruction: the flag is written last (R131), and no other write reaches VF unless VF is its
destination. -/
theorem whichInstructionsWriteVf : Obligations.WhichInstructionsWriteVf := by
  intro i s t _ h hft
  cases i with
  | addReg | subReg | subnReg | shr | shl =>
    obtain rfl := Host.Outcome.next.inj h
    simpa using flagByte_cases _
  | drw x y n =>
    rcases exec_range_next (exec_drw x y n s) h with rfl | rfl
    · simp at hft
    · simpa using flagByte_cases _
  | ldByte | addByte | ldReg | orReg | andReg | xorReg | rnd | ldVxDt =>
    obtain rfl := Host.Outcome.next.inj h
    intro hx
    simp [hx.symm]
  | ldVxK x =>
    intro hx
    rcases exec_ldVxK_next h with rfl | ⟨b, rfl⟩ <;> simp [hx.symm]
  | ldVxMem x =>
    intro hx
    have hlt : ¬ 15 ≤ x := not_le.2 (lt_of_le_of_ne (Fin.le_last x) hx)
    rcases exec_range_next (exec_ldVxMem x s) h with rfl | rfl <;> simp [hlt]
  | ldB x => rcases exec_range_next (exec_ldB x s) h with rfl | rfl <;> simp
  | ldMemVx x => rcases exec_range_next (exec_ldMemVx x s) h with rfl | rfl <;> simp
  | ret => rcases exec_ret_next h with rfl | rfl <;> simp
  | call nnn => rcases exec_call_next h with rfl | ⟨-, rfl⟩ <;> simp
  | _ =>
    obtain rfl := Host.Outcome.next.inj h
    simp

end Sys2Proof.Machine
end

section
/-!
PROOFS. What a host event and a sequence of events answer, and the invariant over every such sequence (O44).
-/
namespace Sys2Proof.Machine

variable {s t : State}

/-! ### Sequences of events (R22) -/

/-- A sequence answers what its first event and then the rest answer. -/
theorem handleAll_cons_eq_next {e : HostEvent} {es : List HostEvent} {rs : List Reply}
    (h : handleAll (e :: es) s = .next (t, rs)) :
    ∃ u r rs', handle e s = .next (u, r) ∧ handleAll es u = .next (t, rs') ∧ rs = r :: rs' := by
  rw [handleAll] at h
  split at h
  · next u r hu =>
    split at h
    · next t' rs' ht =>
      cases h
      exact ⟨u, r, rs', hu, ht, rfl⟩
    · cases h
    · cases h
  · cases h
  · cases h

/-- What each event of a sequence keeps, the sequence keeps. -/
theorem handleAll_keeps {P : State → Prop} {es : List HostEvent} {rs : List Reply}
    (hkeep : ∀ e ∈ es, ∀ u v r, P u → handle e u = .next (v, r) → P v) (hs : P s)
    (h : handleAll es s = .next (t, rs)) : P t := by
  induction es generalizing s rs with
  | nil => cases h; exact hs
  | cons e es ih =>
    obtain ⟨u, r, rs', hu, ht, -⟩ := handleAll_cons_eq_next h
    exact ih (fun e he => hkeep e (List.mem_cons_of_mem _ he)) (hkeep e List.mem_cons_self s u r hs hu) ht

/-! ### One event -/

/-- The event step is the step with the byte given, and the byte is gone after it (R37). -/
theorem handle_step {b : Byte} (h : step (withRnd s b) = .next t) :
    handle (.step b) s = .next (dropRnd t, .result (stepReply t)) := by
  simp only [handle, h]

/-- The invariant speaks of three fields only. -/
theorem inv_of_same (hs : Safety.Inv s) (hp : t.params = s.params) (hm : t.mem = s.mem) (hf : t.fb = s.fb) :
    Safety.Inv t ∧ t.params = s.params :=
  ⟨(StateEffect.of_same hp hm hf).inv hs, hp⟩

/-- A load leaves canonical memory and a screen of the right shape, also where it is rejected (R230, R231). -/
theorem inv_resetLoad (program : List Byte) (hs : Safety.Inv s) :
    Safety.Inv (resetLoad s program) ∧ (resetLoad s program).params = s.params := by
  obtain ⟨hvalid, -, -⟩ := hs
  rcases Nat.lt_or_ge (progMax s.params) program.length with hlen | hlen
  · rw [resetLoad_of_gt hlen]
    refine ⟨⟨?_, ?_, ?_⟩, rejected_params s _⟩
    · rw [rejected_params]; exact hvalid
    · rw [rejected_params, rejected_mem]; exact wf_unspecifiedMemory _ _ _
    · rw [rejected_params, rejected_fb]; exact wf_unspecifiedFrame _ _
  · rw [resetLoad_of_le hlen]
    exact ⟨⟨hvalid, wf_load s.params program, Frame.wf_off⟩, loaded_params s program⟩

theorem keyEvent_same (s : State) (k : Nat) (status : KeyStatus) :
    (keyEvent s k status).params = s.params ∧ (keyEvent s k status).mem = s.mem ∧
    (keyEvent s k status).fb = s.fb := by
  rcases Nat.lt_or_ge k 16 with hk | hk
  · rw [keyEvent_of_lt hk]; exact ⟨rfl, rfl, rfl⟩
  · rw [keyEvent_of_ge hk]; exact ⟨rfl, rfl, rfl⟩

/-- Every event keeps the invariant and the parameters. -/
theorem handle_keeps_inv {e : HostEvent} {r : Reply} (hs : Safety.Inv s) (h : handle e s = .next (t, r)) :
    Safety.Inv t ∧ t.params = s.params := by
  cases e with
  | resetLoad program => cases h; exact inv_resetLoad program hs
  | step b =>
    obtain ⟨u, hu, heffect⟩ := step_effect (withRnd s b)
    rw [handle_step hu] at h
    cases h
    exact ⟨heffect.inv hs, heffect.params⟩
  | keyEvent k status =>
    cases h
    obtain ⟨hp, hm, hf⟩ := keyEvent_same s k status
    exact inv_of_same hs hp hm hf
  | tick n => cases h; exact inv_of_same hs rfl rfl rfl
  | getSnapshot => cases h; exact inv_of_same hs rfl rfl rfl
  | readStatus => cases h; exact inv_of_same hs rfl rfl rfl

/-- Settles O44, by induction over the events: each keeps the invariant and the parameters. -/
theorem eventsKeepTheInvariant : Obligations.EventsKeepTheInvariant := by
  intro es s t rs hs h
  refine handleAll_keeps (P := fun u => Safety.Inv u ∧ u.params = s.params) ?_ ⟨hs, rfl⟩ h
  rintro e - u v r ⟨hu, hp⟩ hv
  obtain ⟨hinv, hp'⟩ := handle_keeps_inv hu hv
  exact ⟨hinv, hp'.trans hp⟩

end Sys2Proof.Machine
end

section
/-!
PROOFS. The reset values that are the spec's own choice (O52), and what the event step does with its byte (O59).
-/
namespace Sys2Proof.Machine

variable {s t : State}

/-- From 80 up the reset byte is 0 (R51). -/
theorem resetByte_of_le (p : Config.Params) {a : Nat} (ha : 80 ≤ a) : resetByte p a = 0 := by
  simp [resetByte, ha]

/-- Settles O52: the fields by the definition of the reset state. -/
theorem resetChosenValues : Obligations.ResetChosenValues := by
  intro p
  refine ⟨fun r => ?_, rfl, fun j => ?_, rfl, rfl, fun a ha => ?_, Frame.pixel_off, fun k => ?_, rfl⟩
  · simp [State.reg, State.resetOf]
  · simp [State.resetOf]
  · rw [byte_resetOf, resetByte_of_le p ha]
  · simp [State.resetOf]

/-! ### The step's input byte (R37) -/

/-- Giving the step its byte changes nothing the first three phases look at. -/
theorem nextPhase_withRnd (s : State) (b : Byte) : nextPhase (withRnd s b) = nextPhase s := rfl

theorem skipIf_withRnd (s : State) (b : Byte) (c : Bool) : (withRnd s b).skipIf c = withRnd (s.skipIf c) b := by
  cases c <;> rfl

/-- The range check does not look at the byte. -/
theorem exec_range_withRnd {i : Instr} {n : Nat} {f g : Nat → State} {b : Byte}
    (hf : exec i s = withRange s n fun a => .next (f a))
    (hg : exec i (withRnd s b) = withRange (withRnd s b) n fun a => .next (g a))
    (hfg : g s.dataAddr = withRnd (f s.dataAddr) b) (h : exec i s = .next t) :
    exec i (withRnd s b) = .next (withRnd t b) := by
  rcases Nat.lt_or_ge s.params.memSize (s.dataAddr + n) with hover | hin
  · obtain rfl := Host.Outcome.next.inj (h.symm.trans (exec_overrun hf hover))
    exact exec_overrun hg hover
  · obtain rfl := Host.Outcome.next.inj (h.symm.trans (exec_inRange hf hin))
    exact (exec_inRange hg hin).trans (congrArg Host.Outcome.next hfg)

theorem execLdVxK_of_some {k : Fin 16} (hk : s.leastKey = some k) (x : Reg) :
    execLdVxK x s = .next (s.setReg x (BitVec.ofNat 8 k.val)).advance := by
  rw [execLdVxK, hk]

theorem execLdVxK_of_none (hk : s.leastKey = none) (x : Reg) : execLdVxK x s = .next s := by
  rw [execLdVxK, hk]

/-- No instruction but RND looks at the byte: with it, the next state is the same but for the byte, which is kept. -/
theorem exec_withRnd {i : Instr} (hi : ∀ x kk, i ≠ .rnd x kk) (h : exec i s = .next t) (b : Byte) :
    exec i (withRnd s b) = .next (withRnd t b) := by
  cases i with
  | rnd x kk => exact absurd rfl (hi x kk)
  | seByte | sneByte | seReg | sneReg | skp | sknp =>
    obtain rfl := Host.Outcome.next.inj h
    exact congrArg Host.Outcome.next (skipIf_withRnd s b _)
  | drw x y n => exact exec_range_withRnd (exec_drw x y n s) (exec_drw x y n (withRnd s b)) rfl h
  | ldB x => exact exec_range_withRnd (exec_ldB x s) (exec_ldB x (withRnd s b)) rfl h
  | ldMemVx x => exact exec_range_withRnd (exec_ldMemVx x s) (exec_ldMemVx x (withRnd s b)) rfl h
  | ldVxMem x => exact exec_range_withRnd (exec_ldVxMem x s) (exec_ldVxMem x (withRnd s b)) rfl h
  | ret =>
    rcases execRet_cases s with ⟨h0, e⟩ | ⟨h0, e⟩
    · obtain rfl := Host.Outcome.next.inj (h.symm.trans e)
      exact if_pos h0
    · obtain rfl := Host.Outcome.next.inj (h.symm.trans e)
      exact if_neg h0
  | call nnn =>
    rcases execCall_cases nnn s with ⟨hsp, e⟩ | ⟨hsp, e⟩
    · obtain rfl := Host.Outcome.next.inj (h.symm.trans e)
      exact if_pos hsp
    · obtain rfl := Host.Outcome.next.inj (h.symm.trans e)
      exact if_neg (Nat.not_le.2 hsp)
  | ldVxK x =>
    rcases execLdVxK_cases x s with ⟨k, hk, e⟩ | ⟨hk, e⟩
    · obtain rfl := Host.Outcome.next.inj (h.symm.trans e)
      exact execLdVxK_of_some (s := withRnd _ b) hk x
    · obtain rfl := Host.Outcome.next.inj (h.symm.trans e)
      exact execLdVxK_of_none (s := withRnd _ b) hk x
  | _ =>
    obtain rfl := Host.Outcome.next.inj h
    rfl

/-- A step that executes no RND does the same with every byte. -/
theorem step_withRnd (hi : ∀ x kk, nextPhase s ≠ .executes (.rnd x kk)) (h : step s = .next t) (b : Byte) :
    step (withRnd s b) = .next (withRnd t b) := by
  unfold step at h ⊢
  rw [nextPhase_withRnd]
  cases hphase : nextPhase s with
  | halted => rw [hphase] at h; cases h; rfl
  | raises r => rw [hphase] at h; cases h; rfl
  | executes i =>
    rw [hphase] at h
    exact exec_withRnd (fun x kk e => hi x kk (by rw [hphase, e])) h b

/-- The word the claims speak of is the fetched one (R53). -/
theorem wordAt_of_wordAtPc {w : Word} (hw : Claims.WordAtPc s w) : s.wordAt s.pc.toNat = w :=
  BitVec.eq_of_toNat_eq ((toNat_wordAt s _).trans hw.symm)

/-- A RND in the event step writes the event's byte ANDed with the mask, and the latch stays (R151). -/
theorem handle_step_of_rnd {x : Reg} {kk : Byte} (h : nextPhase s = .executes (.rnd x kk)) (b : Byte) :
    handle (.step b) s =
      .next (dropRnd ((withRnd s b).setReg x (b &&& kk)).takeRnd.advance, .result s.fault) := by
  refine handle_step ?_
  unfold step
  rw [nextPhase_withRnd, h]
  rfl

/-- What a step executes is the decoded word of a fetch in memory, by a core that is not halted (R100 to R103). -/
theorem nextPhase_eq_executes {i : Instr} (h : nextPhase s = .executes i) :
    s.fault = none ∧ s.pc.toNat + 1 < s.params.memSize ∧ decodeWord (s.wordAt s.pc.toNat) = some i := by
  rcases nextPhase_cases s with ⟨r, -, e⟩ | ⟨-, -, e⟩ | ⟨-, -, -, e⟩ | ⟨j, hf, hp, hd, e⟩
  · rw [e] at h; cases h
  · rw [e] at h; cases h
  · rw [e] at h; cases h
  · rw [e] at h
    cases h
    exact ⟨hf, (fetchable_iff _ _).1 hp, hd⟩

/-- Settles O59: the event is the step with the byte; RND takes it, and no other instruction looks at it. -/
theorem stepEventUsesItsByte : Obligations.StepEventUsesItsByte := by
  intro b s
  refine ⟨?_, ?_, ?_, rfl⟩
  · obtain ⟨t, ht, -⟩ := step_effect (withRnd s b)
    exact ⟨t, ht, handle_step ht⟩
  · intro w x kk hf hpc hw hd
    have hphase : nextPhase s = .executes (.rnd x kk) :=
      nextPhase_executes hf ((fetchable_iff _ _).2 hpc) (by rw [wordAt_of_wordAtPc hw, hd])
    refine ⟨_, (handle_step_of_rnd hphase b).trans (by rw [hf]), ?_⟩
    exact (State.reg_setReg (withRnd s b) x (b &&& kk) x).trans (if_pos rfl)
  · intro hno c
    have hi (x : Reg) (kk : Byte) : nextPhase s ≠ .executes (.rnd x kk) := by
      intro hphase
      obtain ⟨hf, hpc, hd⟩ := nextPhase_eq_executes hphase
      exact hno hf hpc _ (toNat_wordAt s _) x kk hd
    obtain ⟨t, ht, -⟩ := step_effect s
    exact (handle_step (step_withRnd hi ht b)).trans (handle_step (step_withRnd hi ht c)).symm

end Sys2Proof.Machine
end

section
/-!
PROOFS. Which instructions write memory, and what the step after a store fetches (O28, O36, O41).
-/
namespace Sys2Proof.Machine

variable {s t : State}

/-! ### Who writes memory (R55, R64) -/

/-- Settles O36, by the instruction: each ending of every other one is made of updates that leave memory alone. -/
theorem onlyTwoInstructionsWriteMemory : Obligations.OnlyTwoInstructionsWriteMemory := by
  intro i s t h
  cases i with
  | ldB x => trivial
  | ldMemVx x => trivial
  | drw x y n => rcases exec_range_next (exec_drw x y n s) h with rfl | rfl <;> simp [Claims.SameMem]
  | ldVxMem x => rcases exec_range_next (exec_ldVxMem x s) h with rfl | rfl <;> simp [Claims.SameMem]
  | ret => rcases exec_ret_next h with rfl | rfl <;> simp [Claims.SameMem]
  | call nnn => rcases exec_call_next h with rfl | ⟨-, rfl⟩ <;> simp [Claims.SameMem]
  | ldVxK x => rcases exec_ldVxK_next h with rfl | ⟨b, rfl⟩ <;> simp [Claims.SameMem]
  -- what is left has one ending
  | _ =>
    obtain rfl := Host.Outcome.next.inj h
    simp [Claims.SameMem]

/-! ### The word at pc and the step (R53, R100) -/

/-- A word at pc that decodes is what the step runs (R103). -/
theorem step_of_decodes {w : Word} {i : Instr} (hf : s.fault = none) (hpc : s.pc.toNat + 1 < s.params.memSize)
    (hw : Claims.WordAtPc s w) (hd : decodeWord w = some i) : step s = exec i s := by
  have hphase : nextPhase s = .executes i :=
    nextPhase_executes hf ((fetchable_iff _ _).2 hpc) (by rw [wordAt_of_wordAtPc hw, hd])
  rw [step, hphase]

/-- A word at pc that decodes to nothing is latched (R102). -/
theorem step_of_illegal {w : Word} (hf : s.fault = none) (hpc : s.pc.toNat + 1 < s.params.memSize)
    (hw : Claims.WordAtPc s w) (hd : decodeWord w = none) :
    step s = .next (Claims.latched s (.decodeFailure w)) := by
  obtain rfl := wordAt_of_wordAtPc hw
  rw [step, nextPhase_decodeFailure hf ((fetchable_iff _ _).2 hpc) hd]
  rfl

/-! ### A decoded instruction is well formed (R76) -/

/-- In family 0 the words of CLS and RET are never read as SYS. -/
theorem wellFormed_decodeFamily0 {w : Word} (h : fieldF w = 0) : (decodeFamily0 w).WellFormed := by
  have hw : wordNNN 0 (fieldNNN w) = w := by rw [← h, wordNNN_fields]
  unfold decodeFamily0
  split
  · rfl
  · next hcls =>
    split
    · rfl
    · next hret =>
      have h0E0 : fieldNNN w ≠ 0x0E0#12 := fun e => hcls (by rw [← hw, e]; rfl)
      have h0EE : fieldNNN w ≠ 0x0EE#12 := fun e => hret (by rw [← hw, e]; rfl)
      simp [Instr.WellFormed, Instr.wellFormed, h0E0, h0EE]

/-- By the family: outside family 0 every row of the decoder names an instruction other than SYS. -/
theorem wellFormed_of_decodeWord {w : Word} {i : Instr} (h : decodeWord w = some i) : i.WellFormed := by
  simp only [decodeWord, decodeFamily8, decodeFamilyE, decodeFamilyF] at h
  split at h
  case h_1 hfamily =>
    cases h
    exact wellFormed_decodeFamily0 (BitVec.eq_of_toNat_eq hfamily)
  -- the families that select by a trailing nibble or byte
  case h_6 | h_9 | h_10 | h_15 | h_16 => split_ifs at h <;> cases h <;> rfl
  all_goals
    cases h
    rfl

/-- Settles O28: the phases of a step, and the decoder's family 0. -/
theorem stepRunsTheDecodedInstruction : Obligations.StepRunsTheDecodedInstruction :=
  fun _ _ _ hf hpc hw hd => ⟨step_of_decodes hf hpc hw hd, wellFormed_of_decodeWord hd⟩

/-! ### The step after a store (R60) -/

/-- A store of the bytes `stored` that lies in memory makes every byte read as the claim says. -/
theorem byte_store_eq_byteAfterStore {bytes : List Byte} {stored : Nat → Byte} (hmem : s.mem.wf s.params = true)
    (hin : s.dataAddr + bytes.length ≤ s.params.memSize)
    (hstored : ∀ j (hj : j < bytes.length), stored j = bytes[j]) (a : Nat) :
    (s.store s.dataAddr bytes).byte a = Claims.byteAfterStore s bytes.length stored a := by
  unfold Claims.byteAfterStore
  split
  · next ha =>
    have hj : a - s.dataAddr < bytes.length := by omega
    have hbyte := byte_store_inside hmem hin hj
    rw [Nat.add_sub_cancel' ha.1] at hbyte
    rw [hbyte, hstored _ hj]
  · exact byte_store_outside s _ _ (by omega)

/-- The next step after an instruction that stores `bytes` and does not fault runs or latches the word now at the
next instruction's address. -/
theorem step_after_store {i : Instr} {bytes : List Byte} {stored : Nat → Byte} {w : Word}
    (hi : exec i s = withRange s bytes.length fun a => .next (s.store a bytes).advance)
    (hstored : ∀ j (hj : j < bytes.length), stored j = bytes[j])
    (hmem : s.mem.wf s.params = true) (h : exec i s = .next t) (hft : t.fault = none)
    (hpc : (s.pc + 2).toNat + 1 < s.params.memSize)
    (hw : w.toNat = 256 * (Claims.byteAfterStore s bytes.length stored (s.pc + 2).toNat).toNat +
      (Claims.byteAfterStore s bytes.length stored ((s.pc + 2).toNat + 1)).toNat) :
    (∀ j, decodeWord w = some j → step t = exec j t) ∧
    (decodeWord w = none → step t = .next (Claims.latched t (.decodeFailure w))) := by
  rcases Nat.lt_or_ge s.params.memSize (s.dataAddr + bytes.length) with hover | hin
  · obtain rfl := Host.Outcome.next.inj (h.symm.trans (exec_overrun hi hover))
    simp [Claims.latched] at hft
  · obtain rfl := Host.Outcome.next.inj (h.symm.trans (exec_inRange hi hin))
    have hbyte := byte_store_eq_byteAfterStore hmem hin hstored
    have hword : Claims.WordAtPc (s.store s.dataAddr bytes).advance w := by
      simpa [Claims.WordAtPc, hbyte] using hw
    exact ⟨fun j => step_of_decodes hft hpc hword, step_of_illegal hft hpc hword⟩

/-- The digits of the claim are the bytes LD B stores (R183). -/
theorem eq_getElem_bcdDigits {b : Byte} {stored : Nat → Byte} (h0 : (stored 0).toNat = b.toNat / 100)
    (h1 : (stored 1).toNat = b.toNat / 10 % 10) (h2 : (stored 2).toNat = b.toNat % 10) (j : Nat)
    (hj : j < (bcdDigits b).length) : stored j = (bcdDigits b)[j] := by
  obtain ⟨d0, d1, d2⟩ := toNat_bcdDigits b
  rw [length_bcdDigits] at hj
  apply BitVec.eq_of_toNat_eq
  interval_cases j
  · exact h0.trans d0.symm
  · exact h1.trans d1.symm
  · exact h2.trans d2.symm

/-- The registers of the claim are the bytes LD [I], Vx stores (R184). -/
theorem eq_getElem_regsUpTo {x : Reg} {stored : Nat → Byte} (h : ∀ r : Reg, r ≤ x → stored r.val = s.reg r) (j : Nat)
    (hj : j < (s.regsUpTo x).length) : stored j = (s.regsUpTo x)[j] := by
  have hjx : j < x.val + 1 := by rwa [length_regsUpTo] at hj
  have hr := getElem_regsUpTo s x ⟨j, by omega⟩ hj
  rw [hr]
  exact h ⟨j, by omega⟩ (Nat.le_of_lt_succ hjx)

/-- Settles O41: both instructions store their bytes from `I[11:0]`, and the next step reads them. -/
theorem storeIsFetchedNext : Obligations.StoreIsFetchedNext := by
  rintro x s t i n stored w (⟨rfl, rfl, hregs⟩ | ⟨rfl, rfl, h0, h1, h2⟩) hmem - h hft hpc hw
  · have hlen := length_regsUpTo s x
    rw [← hlen] at hw
    exact step_after_store (by rw [hlen]; exact exec_ldMemVx x s) (eq_getElem_regsUpTo hregs) hmem h hft hpc hw
  · exact step_after_store (exec_ldB x s) (eq_getElem_bcdDigits h0 h1 h2) hmem h hft hpc hw

end Sys2Proof.Machine
end

section
/-!
PROOFS. The decoder and the encoder are inverse to each other, and exactly which words are illegal (O46, O47, O49, O50).
-/
namespace Sys2Proof.Machine

variable {w : Word} {i : Instr}

/-! ### Decoding a built word (R73) -/

theorem decodeWord_family8 (x y : Reg) (n : Nibble) : decodeWord (wordXYN 0x8 x y n) = decodeFamily8 x y n := by
  simp [decodeWord]

theorem decodeWord_familyE (x : Reg) (kk : Byte) : decodeWord (wordXKK 0xE x kk) = decodeFamilyE x kk := by
  simp [decodeWord]

/-- A well-formed SYS is not read as CLS or RET (R76). -/
theorem decodeWord_family0 {nnn : Addr} (h : (Instr.sys nnn).WellFormed) :
    decodeWord (wordNNN 0x0 nnn) = some (.sys nnn) := by
  obtain ⟨hcls, hret⟩ : nnn ≠ 0x0E0#12 ∧ nnn ≠ 0x0EE#12 := by
    simpa [Instr.WellFormed, Instr.wellFormed] using h
  have hnnn := fieldNNN_wordNNN 0#4 nnn
  have hword0E0 : wordNNN 0#4 nnn ≠ 0x00E0#16 := fun e => hcls (hnnn.symm.trans (congrArg fieldNNN e))
  have hword0EE : wordNNN 0#4 nnn ≠ 0x00EE#16 := fun e => hret (hnnn.symm.trans (congrArg fieldNNN e))
  simp [decodeWord, decodeFamily0, hword0E0, hword0EE]

/-- Settles O46, by the instruction: the decoder reads each field back from the word built of them. -/
theorem decodeOfEncode : Obligations.DecodeOfEncode := by
  intro i hi
  cases i with
  | cls | ret => rfl
  | sys nnn => exact decodeWord_family0 hi
  | ldReg x y | orReg x y | andReg x y | xorReg x y | addReg x y | subReg x y | shr x y | subnReg x y | shl x y =>
    exact decodeWord_family8 x y _
  | drw x y n => exact decodeWord_familyD x y _
  | skp x | sknp x => exact decodeWord_familyE x _
  | ldVxDt x | ldVxK x | ldDtVx x | ldStVx x | addI x | ldF x | ldB x | ldMemVx x | ldVxMem x =>
    exact decodeWord_familyF x _
  -- what is left is alone in its family
  | _ => simp [encode, decodeWord]

/-! ### Encoding what was decoded (R73) -/

/-- The sixteen families, one case each: `dA` is the family with first nibble A. -/
theorem family_cases {motive : Nibble → Prop}
    (d0 : motive 0x0) (d1 : motive 0x1) (d2 : motive 0x2) (d3 : motive 0x3) (d4 : motive 0x4) (d5 : motive 0x5)
    (d6 : motive 0x6) (d7 : motive 0x7) (d8 : motive 0x8) (d9 : motive 0x9) (dA : motive 0xA) (dB : motive 0xB)
    (dC : motive 0xC) (dD : motive 0xD) (dE : motive 0xE) (dF : motive 0xF) (t : Nibble) : motive t := by
  obtain ⟨t, ht⟩ := t
  interval_cases t <;> assumption

theorem encode_decodeFamily0 (h : wordNNN 0x0 (fieldNNN w) = w) : encode (decodeFamily0 w) = w := by
  unfold decodeFamily0
  split_ifs with hcls hret
  · exact hcls.symm
  · exact hret.symm
  · exact h

theorem encode_of_decodeFamily8 {x y : Reg} {n : Nibble} (h : decodeFamily8 x y n = some i) :
    encode i = wordXYN 0x8 x y n := by
  unfold decodeFamily8 at h
  split_ifs at h <;> cases h <;> subst n <;> rfl

theorem encode_of_decodeFamilyE {x : Reg} {kk : Byte} (h : decodeFamilyE x kk = some i) :
    encode i = wordXKK 0xE x kk := by
  unfold decodeFamilyE at h
  split_ifs at h <;> cases h <;> subst kk <;> rfl

theorem encode_of_decodeFamilyF {x : Reg} {kk : Byte} (h : decodeFamilyF x kk = some i) :
    encode i = wordXKK 0xF x kk := by
  unfold decodeFamilyF at h
  split_ifs at h <;> cases h <;> subst kk <;> rfl

/-- By the family: the word is built again from the fields that were read, and those the row fixes are as it says. -/
theorem encode_of_decodeWord (h : decodeWord w = some i) : encode i = w := by
  have hnnn := wordNNN_fields w
  have hxkk := wordXKK_fields w
  have hxyn := wordXYN_fields w
  unfold decodeWord at h
  cases hw : fieldF w using family_cases with rw [hw] at h hnnn hxkk hxyn
  | d0 => cases h; exact encode_decodeFamily0 hnnn
  | d1 | d2 | dA | dB => cases h; exact hnnn
  | d3 | d4 | d6 | d7 | dC => cases h; exact hxkk
  | d5 | d9 =>
    obtain ⟨hn, hi⟩ := (Option.ite_none_right_eq_some ..).1 h
    cases hi
    rwa [hn] at hxyn
  | dD => cases h; exact hxyn
  | d8 => exact (encode_of_decodeFamily8 h).trans hxyn
  | dE => exact (encode_of_decodeFamilyE h).trans hxkk
  | dF => exact (encode_of_decodeFamilyF h).trans hxkk

/-- Settles O47: by the family, and the decoder's family 0. -/
theorem encodeOfDecode : Obligations.EncodeOfDecode :=
  fun _ _ h => ⟨encode_of_decodeWord h, wellFormed_of_decodeWord h⟩

/-! ### The illegal words (R81) -/

/-- A first match is none where the first test fails and the rest matches nothing. -/
theorem ite_some_eq_none_iff {α : Type} {c : Prop} [Decidable c] (a : α) (rest : Option α) :
    (if c then some a else rest) = none ↔ ¬c ∧ rest = none := by
  split <;> simp [*]

theorem decodeFamily8_eq_none_iff (x y : Reg) (n : Nibble) :
    decodeFamily8 x y n = none ↔ n ∈ [0x8, 0x9, 0xA, 0xB, 0xC, 0xD, 0xF] := by
  simp only [decodeFamily8, ite_some_eq_none_iff]
  decide +revert

theorem decodeFamilyE_eq_none_iff (x : Reg) (kk : Byte) : decodeFamilyE x kk = none ↔ kk ∉ [0x9E, 0xA1] := by
  simp [decodeFamilyE, ite_some_eq_none_iff]

theorem decodeFamilyF_eq_none_iff (x : Reg) (kk : Byte) :
    decodeFamilyF x kk = none ↔ kk ∉ [0x07, 0x0A, 0x15, 0x18, 0x1E, 0x29, 0x33, 0x55, 0x65] := by
  simp [decodeFamilyF, ite_some_eq_none_iff]

/-- Settles O49, by the family: 5 and 9 compare the trailing nibble with 0, 8, E and F have an allow-list, and every
other family decodes all its words. -/
theorem illegalWords : Obligations.IllegalWords := by
  intro w
  unfold decodeWord
  cases hw : fieldF w using family_cases with
  | d8 => simp [decodeFamily8_eq_none_iff]
  | dE => simp [decodeFamilyE_eq_none_iff]
  | dF => simp [decodeFamilyF_eq_none_iff]
  | _ => simp

/-- Settles O50: the decoder evaluated on ten words. -/
theorem sampleWordsDecode : Obligations.SampleWordsDecode := by
  unfold Obligations.SampleWordsDecode
  decide

end Sys2Proof.Machine
end

section
/-!
PROOFS. The decoder is the first matching row of R75's table (O48).
-/
namespace Sys2Proof.Machine
open Laws.TableMatch (wordNNN_mask wordXKK_mask_byte wordXYN_mask_nibble)

variable {w p : Word}

/-! ### What each mask compares -/

theorem and_mask_family (w : Word) : w &&& (0xF000 : Word) = wordNNN (fieldF w) 0 := by
  conv_lhs => rw [← wordNNN_fields w]
  exact wordNNN_mask _ _

theorem and_mask_byte (w : Word) : w &&& (0xF0FF : Word) = wordXKK (fieldF w) 0 (fieldKK w) := by
  conv_lhs => rw [← wordXKK_fields w]
  exact wordXKK_mask_byte _ _ _

theorem and_mask_nibble (w : Word) : w &&& (0xF00F : Word) = wordXYN (fieldF w) 0 0 (fieldN w) := by
  conv_lhs => rw [← wordXYN_fields w]
  exact wordXYN_mask_nibble _ _ _ _

/-- Mask FFFF compares the whole word. -/
theorem and_mask_word (w : Word) : w &&& (0xFFFF : Word) = w := BitVec.and_allOnes

/-- Mask F000 compares the family only. -/
theorem selects_family {t : Nibble} (hw : fieldF w = t) (hp : wordNNN t 0 = p) : w &&& (0xF000 : Word) = p := by
  rw [and_mask_family, hw, hp]

/-- Mask F0FF compares the trailing byte, within the family. -/
theorem selects_byte_iff {t : Nibble} (hw : fieldF w = t) (hp : wordXKK t 0 (fieldKK p) = p) :
    w &&& (0xF0FF : Word) = p ↔ fieldKK w = fieldKK p := by
  rw [and_mask_byte, hw]
  exact ⟨fun e => by simpa using congrArg fieldKK e, fun e => by rw [e, hp]⟩

/-- Mask F00F compares the trailing nibble, within the family. -/
theorem selects_nibble_iff {t : Nibble} (hw : fieldF w = t) (hp : wordXYN t 0 0 (fieldN p) = p) :
    w &&& (0xF00F : Word) = p ↔ fieldN w = fieldN p := by
  rw [and_mask_nibble, hw]
  exact ⟨fun e => by simpa using congrArg fieldN e, fun e => by rw [e, hp]⟩

/-! ### The first matching row -/

/-- What the first row of a list that `w` selects reads from it: of the whole table, `decodeByTable`. -/
def readFirst (rows : List TableRow) (w : Word) : Option Instr :=
  (rows.find? fun row => w &&& row.mask == row.pattern).map fun row => row.read w

theorem readFirst_cons (r : TableRow) (rows : List TableRow) (w : Word) :
    readFirst (r :: rows) w = if w &&& r.mask = r.pattern then some (r.read w) else readFirst rows w := by
  unfold readFirst
  by_cases h : w &&& r.mask = r.pattern <;> simp [h]

/-- The rows of a family: those whose pattern has its first nibble. -/
def familyRows (t : Nibble) : List TableRow := opcodeTable.filter fun row => fieldF row.pattern == t

/-- A word selects rows of its own family only, since every mask keeps the first nibble. -/
theorem fieldF_of_selects {r : TableRow} (hr : r ∈ opcodeTable) (h : w &&& r.mask = r.pattern) :
    fieldF r.pattern = fieldF w := by
  have hmask : ∀ r ∈ opcodeTable, r.mask &&& (0xF000 : Word) = 0xF000 := by decide
  have hfamily : wordNNN (fieldF r.pattern) 0 = wordNNN (fieldF w) 0 := by
    rw [← and_mask_family, ← and_mask_family, ← h, BitVec.and_assoc, hmask r hr]
  simpa using congrArg fieldF hfamily

theorem decodeByTable_eq_familyRows (w : Word) : decodeByTable w = readFirst (familyRows (fieldF w)) w := by
  rw [decodeByTable, readFirst, familyRows, List.find?_filter]
  refine congrArg _ (List.find?_congr fun r hr => ?_)
  by_cases h : w &&& r.mask = r.pattern
  · simp [h, fieldF_of_selects hr h]
  · simp [h]

/-- By the family: its rows, tried in order, are what the decoder compares. -/
theorem decodeWord_eq_decodeByTable (w : Word) : decodeWord w = decodeByTable w := by
  rw [decodeByTable_eq_familyRows]
  unfold decodeWord
  cases hw : fieldF w using family_cases with
  | d0 =>
    show some (decodeFamily0 w) = readFirst [_, _, _] w
    have hsys : w &&& (0xF000 : Word) = 0x0000 := selects_family hw rfl
    simp only [readFirst_cons, and_mask_word, hsys, if_true, decodeFamily0, apply_ite some]
    rfl
  | d5 | d9 =>
    show _ = readFirst [_] w
    simp (disch := decide) only [readFirst_cons, selects_nibble_iff hw]
    rfl
  | d8 =>
    show decodeFamily8 _ _ _ = readFirst [_, _, _, _, _, _, _, _, _] w
    simp (disch := decide) only [readFirst_cons, selects_nibble_iff hw]
    rfl
  | dE =>
    show decodeFamilyE _ _ = readFirst [_, _] w
    simp (disch := decide) only [readFirst_cons, selects_byte_iff hw]
    rfl
  | dF =>
    show decodeFamilyF _ _ = readFirst [_, _, _, _, _, _, _, _, _] w
    simp (disch := decide) only [readFirst_cons, selects_byte_iff hw]
    rfl
  -- every other family is one row, whose mask is F000
  | _ =>
    show _ = readFirst [_] w
    rw [readFirst_cons]
    exact (if_pos (selects_family hw rfl)).symm

/-! ### Words that select two rows -/

/-- Two rows that one word selects agree on the bits both masks keep. -/
theorem patterns_agree {r s : TableRow} (hr : w &&& r.mask = r.pattern) (hs : w &&& s.mask = s.pattern) :
    r.pattern &&& s.mask = s.pattern &&& r.mask := by
  rw [← hr, ← hs, BitVec.and_assoc, BitVec.and_assoc, BitVec.and_comm r.mask]

/-- The only rows whose patterns agree so are CLS and RET with the later SYS. -/
theorem opcodeTable_pairwise : opcodeTable.Pairwise fun r s => r.pattern &&& s.mask = s.pattern &&& r.mask →
    r.mask = 0xFFFF ∧ (r.pattern = 0x00E0 ∨ r.pattern = 0x00EE) ∧ s.pattern = 0x0000 := by
  decide

/-- A word that selects two rows is the word of CLS or RET, and the later row is SYS. -/
theorem overlap_of_selects {i j : Fin opcodeTable.length} (hij : i < j)
    (hi : w &&& opcodeTable[i].mask = opcodeTable[i].pattern) (hj : w &&& opcodeTable[j].mask = opcodeTable[j].pattern) :
    (w = 0x00E0 ∨ w = 0x00EE) ∧ opcodeTable[j].pattern = 0x0000 := by
  obtain ⟨hmask, hpattern, hsys⟩ := opcodeTable_pairwise.rel_get_of_lt hij (patterns_agree hi hj)
  have hw : opcodeTable[i].pattern = w := by
    rw [← hi]
    exact (congrArg _ hmask).trans (and_mask_word w)
  exact ⟨hw ▸ hpattern, hsys⟩

/-- Settles O48: by the family for the decoder, and by the rows' patterns and masks for the overlap. -/
theorem decoderIsTheTable : Obligations.DecoderIsTheTable :=
  ⟨rfl, fun w => ⟨decodeWord_eq_decodeByTable w, fun _ _ => overlap_of_selects⟩⟩

end Sys2Proof.Machine
end

section
/-!
PROOFS. The phases of a step that run no instruction, precise faults, pc after each instruction, and the halted core
(O29 to O31, O33, O35, O60).
-/
namespace Sys2Proof.Machine

variable {s t : State}

/-! ### Halted, fetch, decode (R101, R102, R107) -/

/-- A halted core's step does nothing (R107). -/
theorem step_of_halted {r : Fault} (hf : s.fault = some r) : step s = .next s := by
  rw [step, nextPhase_halted hf]

/-- Settles O29: the fetch is the first thing that can fail in a core that is not halted. -/
theorem fetchPastTheTopLatches : Obligations.FetchPastTheTopLatches := by
  intro s hf hpc
  have hfetch : fetchable s.params s.pc = false := by simpa [fetchable] using hpc
  rw [step, nextPhase_fetchOverrun hf hfetch]
  rfl

/-- Settles O30: the step latches the fetched word. -/
theorem illegalWordLatchesDecodeFailure : Obligations.IllegalWordLatchesDecodeFailure :=
  fun _ _ => step_of_illegal

/-- Settles O31: the reply is the latch, which stands. -/
theorem haltedStepChangesNothing : Obligations.HaltedStepChangesNothing :=
  fun s _ hf => ⟨s, step_of_halted hf, rfl, hf⟩

/-! ### Precise faults (R106, R208) -/

/-- A range-checked instruction raises, or leaves the latch alone where what runs after the check does. -/
theorem exec_range_raises_or_keeps_fault {i : Instr} {n : Nat} {f : Nat → State}
    (hi : exec i s = withRange s n fun a => .next (f a)) (h : exec i s = .next t)
    (hf : (f s.dataAddr).fault = s.fault) : (∃ r, t = s.raise r) ∨ t.fault = s.fault := by
  rcases exec_range_next hi h with rfl | rfl
  · exact .inl ⟨_, rfl⟩
  · exact .inr hf

/-- By the instruction: it raises, or leaves the latch alone. -/
theorem exec_raises_or_keeps_fault {i : Instr} (h : exec i s = .next t) :
    (∃ r, t = s.raise r) ∨ t.fault = s.fault := by
  cases i with
  | drw x y n => exact exec_range_raises_or_keeps_fault (exec_drw x y n s) h rfl
  | ldB x => exact exec_range_raises_or_keeps_fault (exec_ldB x s) h rfl
  | ldMemVx x => exact exec_range_raises_or_keeps_fault (exec_ldMemVx x s) h rfl
  | ldVxMem x => exact exec_range_raises_or_keeps_fault (exec_ldVxMem x s) h rfl
  | ret =>
    rcases exec_ret_next h with rfl | rfl
    · exact .inl ⟨_, rfl⟩
    · exact .inr rfl
  | call nnn =>
    rcases exec_call_next h with rfl | ⟨-, rfl⟩
    · exact .inl ⟨_, rfl⟩
    · exact .inr rfl
  | ldVxK x => rcases exec_ldVxK_next h with rfl | ⟨b, rfl⟩ <;> exact .inr rfl
  -- what is left has one ending
  | _ =>
    obtain rfl := Host.Outcome.next.inj h
    exact .inr (by simp)

/-- A step is a fault entry, or leaves the latch alone. -/
theorem step_raises_or_keeps_fault (h : step s = .next t) : (∃ r, t = s.raise r) ∨ t.fault = s.fault := by
  unfold step at h
  split at h
  · cases h; exact .inr rfl
  · cases h; exact .inl ⟨_, rfl⟩
  · exact exec_raises_or_keeps_fault h

/-- Settles O33: the latch was empty, so the step is a fault entry, of the record latched. -/
theorem faultingStepChangesOnlyTheLatch : Obligations.FaultingStepChangesOnlyTheLatch := by
  intro s t r hf h hr
  rcases step_raises_or_keeps_fault h with ⟨r', rfl⟩ | hkeep
  · obtain rfl : r' = r := Option.some.inj hr
    rfl
  · rw [hkeep, hf] at hr
    cases hr

/-! ### pc after an instruction that completes (R104) -/

/-- A range-checked instruction that completes has passed the check. -/
theorem exec_range_completes {i : Instr} {n : Nat} {f : Nat → State}
    (hi : exec i s = withRange s n fun a => .next (f a)) (h : exec i s = .next t) (hft : t.fault = none) :
    t = f s.dataAddr := by
  rcases exec_range_next hi h with rfl | e
  · cases hft
  · exact e

/-- A RET that completes pops the slot below the stack pointer (R112). -/
theorem exec_ret_completes (h : exec .ret s = .next t) (hft : t.fault = none) :
    ∃ j : Fin 16, j.val + 1 = s.sp.val ∧ t.pc = s.stack[j] := by
  rcases execRet_cases s with ⟨-, e⟩ | ⟨hsp, e⟩
  · obtain rfl := Host.Outcome.next.inj (h.symm.trans e)
    cases hft
  · obtain rfl := Host.Outcome.next.inj (h.symm.trans e)
    have hpos : s.sp.val ≠ 0 := Fin.val_ne_zero_iff.2 hsp
    refine ⟨s.sp - 1, ?_, rfl⟩
    rw [Fin.val_sub_one_of_ne_zero hsp, Nat.sub_add_cancel (Nat.pos_of_ne_zero hpos)]

/-- LD Vx, K holds exactly where no key is pressed (R172). -/
theorem exec_ldVxK_pc {x : Reg} (h : exec (.ldVxK x) s = .next t) :
    (t.pc = s.pc ∧ ∀ k : Fin 16, s.key[k] = false) ∨ (t.pc = s.pc + 2 ∧ ∃ k : Fin 16, s.key[k] = true) := by
  rcases execLdVxK_cases x s with ⟨k, hk, e⟩ | ⟨hk, e⟩
  · obtain rfl := Host.Outcome.next.inj (h.symm.trans e)
    exact .inr ⟨rfl, k, (leastKey_eq_some hk).1⟩
  · obtain rfl := Host.Outcome.next.inj (h.symm.trans e)
    exact .inl ⟨rfl, leastKey_eq_none hk⟩

/-- A conditional skip goes to one of two places. -/
theorem skipIf_pc_cases (s : State) (c : Bool) : (s.skipIf c).pc = s.pc + 2 ∨ (s.skipIf c).pc = s.pc + 4 := by
  cases c
  · exact .inl rfl
  · exact .inr rfl

/-- Settles O35, by the instruction. -/
theorem pcUpdateByInstruction : Obligations.PcUpdateByInstruction := by
  intro i s t _ h hft
  cases i with
  | ret => exact exec_ret_completes h hft
  | call nnn =>
    rcases exec_call_next h with rfl | ⟨-, rfl⟩
    · cases hft
    · rfl
  | seByte | sneByte | seReg | sneReg | skp | sknp =>
    obtain rfl := Host.Outcome.next.inj h
    exact skipIf_pc_cases s _
  | ldVxK x => exact exec_ldVxK_pc h
  | drw x y n => obtain rfl := exec_range_completes (exec_drw x y n s) h hft; rfl
  | ldB x => obtain rfl := exec_range_completes (exec_ldB x s) h hft; rfl
  | ldMemVx x => obtain rfl := exec_range_completes (exec_ldMemVx x s) h hft; rfl
  | ldVxMem x => obtain rfl := exec_range_completes (exec_ldVxMem x s) h hft; rfl
  -- the two other jumps set their target, and what is left advances
  | _ =>
    obtain rfl := Host.Outcome.next.inj h
    rfl

/-! ### Host events of a halted core (R107, R209) -/

/-- `t` is still halted with the record `r`, in all that R107 freezes as it was in `s`. -/
def FrozenSince (s : State) (r : Fault) (t : State) : Prop :=
  t.fault = some r ∧ t.v = s.v ∧ t.i = s.i ∧ t.pc = s.pc ∧ Claims.SameStack s t ∧ t.mem = s.mem ∧ t.fb = s.fb ∧
  t.params = s.params

/-- By the event: a halted step does nothing, and no other event but `reset_load` reaches what is frozen. -/
theorem handle_keeps_frozen {e : HostEvent} {u v : State} {r : Fault} {reply : Reply}
    (he : Safety.isResetLoad e = false) (hu : FrozenSince s r u) (h : handle e u = .next (v, reply)) :
    FrozenSince s r v := by
  cases e with
  | resetLoad program => cases he
  | step b =>
    have hstep : step (withRnd u b) = .next (withRnd u b) := step_of_halted hu.1
    rw [handle_step hstep] at h
    cases h
    exact hu
  | keyEvent k status =>
    cases h
    rcases Nat.lt_or_ge k 16 with hk | hk
    · rw [keyEvent_of_lt hk]; exact hu
    · rw [keyEvent_of_ge hk]; exact hu
  | tick n => cases h; exact hu
  | getSnapshot => cases h; exact hu
  | readStatus => cases h; exact hu

/-- Settles O60, by induction over the events: each keeps the halted core frozen. -/
theorem onlyResetLoadLeavesTheFault : Obligations.OnlyResetLoadLeavesTheFault := by
  intro es s t rs r hf hes h
  have hs : FrozenSince s r s := ⟨hf, rfl, rfl, rfl, ⟨rfl, rfl⟩, rfl, rfl, rfl⟩
  exact handleAll_keeps (fun e he _ _ _ => handle_keeps_frozen (hes e he)) hs h

end Sys2Proof.Machine
end

section
/-!
PROOFS. System, clear screen, jump, call, return and skip: what they decode from, where they leave pc and the stack, and
their frames (O1 to O8).
-/
namespace Sys2Proof.Machine

variable {s : State}

/-! ### Updates of pc alone (R104) -/

theorem onlyRegsPc_setPc (s : State) (a : Addr) : Claims.OnlyRegsPc s (s.setPc a) :=
  ⟨rfl, ⟨rfl, rfl⟩, ⟨rfl, rfl⟩, fun _ => rfl, ⟨rfl, rfl⟩, ⟨rfl, rfl⟩, rfl, rfl, rfl⟩

/-- An instruction whose whole meaning is to set pc keeps every register and everything else. -/
theorem exec_setPc {i : Instr} {a : Addr} (hi : exec i s = .next (s.setPc a)) :
    ∃ t, exec i s = .next t ∧ t.pc = a ∧ Claims.SameRegs s t ∧ Claims.OnlyRegsPc s t :=
  ⟨_, hi, rfl, fun _ => rfl, onlyRegsPc_setPc s a⟩

/-- An instruction whose whole meaning is a conditional skip: it skips under `p`, advances under `q`, and writes pc
only. -/
theorem exec_skipIf {i : Instr} {c : Bool} {p q : Prop} (hi : exec i s = .next (s.skipIf c)) (hp : p → c = true)
    (hq : q → c = false) :
    ∃ t, exec i s = .next t ∧ (p → t.pc = s.pc + 4) ∧ (q → t.pc = s.pc + 2) ∧ Claims.SameRegs s t ∧
      Claims.OnlyRegsPc s t := by
  refine ⟨_, hi, fun h => by rw [hp h]; rfl, fun h => by rw [hq h]; rfl, fun r => State.reg_skipIf s c r, ?_⟩
  cases c
  · exact onlyRegsPc_setPc s (s.pc + 2)
  · exact onlyRegsPc_setPc s (s.pc + 4)

/-- Settles O1: SYS is the advance, and its well-formed words are read as SYS (R76). -/
theorem sysAdvancesOnly : Obligations.SysAdvancesOnly := by
  intro nnn s
  refine ⟨fun hcls hret => decodeWord_family0 ?_, exec_setPc rfl⟩
  simp [Instr.WellFormed, Instr.wellFormed, hcls, hret]

/-- Settles O4: JP sets pc. -/
theorem jpSetsPc : Obligations.JpSetsPc :=
  fun nnn _ => ⟨decodeOfEncode (.jp nnn) rfl, exec_setPc rfl⟩

/-- The 12-bit sum of a target and a byte is their sum modulo 4096 (D28). -/
theorem toNat_add_setWidth (nnn : Addr) (b : Byte) :
    (nnn + b.setWidth 12).toNat = (nnn.toNat + b.toNat) % 4096 := by
  rw [BitVec.toNat_add, BitVec.toNat_setWidth, Nat.add_mod_mod]

/-- Settles O8: JP V0 sets pc to the 12-bit sum. -/
theorem jpV0AddsV0 : Obligations.JpV0AddsV0 := by
  intro nnn s
  obtain ⟨t, h, hpc, hframe⟩ := exec_setPc (i := .jpV0 nnn) (s := s) rfl
  exact ⟨decodeOfEncode (.jpV0 nnn) rfl, t, h, by rw [hpc, toNat_add_setWidth], hframe⟩

/-- Settles O6: both are conditional skips on the comparison of Vx with the byte. -/
theorem byteSkips : Obligations.ByteSkips :=
  fun x kk _ => ⟨⟨decodeOfEncode (.seByte x kk) rfl, exec_skipIf rfl beq_iff_eq.2 beq_false_of_ne⟩,
    decodeOfEncode (.sneByte x kk) rfl, exec_skipIf rfl bne_iff_ne.2 bne_eq_false_iff_eq.2⟩

/-- Families 5 and 9 decode trailing nibble 0 only (R81). -/
theorem decodeWord_families5_9_of_ne (x y : Reg) {n : Nibble} (hn : n ≠ 0) :
    decodeWord (wordXYN 0x5 x y n) = none ∧ decodeWord (wordXYN 0x9 x y n) = none := by
  simpa [decodeWord] using hn

/-- Settles O7: both are conditional skips on the comparison of Vx with Vy. -/
theorem registerSkips : Obligations.RegisterSkips :=
  fun x y _ => ⟨fun _ => decodeWord_families5_9_of_ne x y,
    ⟨decodeOfEncode (.seReg x y) rfl, exec_skipIf rfl beq_iff_eq.2 beq_false_of_ne⟩,
    decodeOfEncode (.sneReg x y) rfl, exec_skipIf rfl bne_iff_ne.2 bne_eq_false_iff_eq.2⟩

/-! ### The screen (R111) -/

/-- Settles O2: CLS puts the frame with every pixel Off, and a write of the screen sets dirty (R34). -/
theorem clsClearsTheScreen : Obligations.ClsClearsTheScreen :=
  ⟨decodeOfEncode .cls rfl, fun _ => ⟨_, rfl, fun row _ col _ => Frame.pixel_off row col, Frame.wf_off, rfl, rfl,
    fun _ => rfl, rfl, ⟨rfl, rfl⟩, ⟨rfl, rfl⟩, fun _ => rfl, ⟨rfl, rfl⟩, rfl, rfl, rfl⟩⟩

/-! ### The stack (R112, R114) -/

/-- Settles O3: the two endings of RET; the slot popped is the one below sp. -/
theorem retPopsOrUnderflows : Obligations.RetPopsOrUnderflows := by
  refine ⟨decodeOfEncode .ret rfl, fun s => ?_⟩
  rcases execRet_cases s with ⟨hsp, e⟩ | ⟨hsp, e⟩
  · exact ⟨fun _ => e, fun j hj => by simp [hsp] at hj⟩
  · refine ⟨fun h0 => absurd (Fin.ext h0) hsp, fun j hj => ?_⟩
    obtain rfl : s.sp - 1 = j := Fin.ext (by rw [Fin.val_sub_one_of_ne_zero hsp, hj, Nat.add_sub_cancel])
    exact ⟨_, e, rfl, rfl, rfl, fun _ => rfl, rfl, ⟨rfl, rfl⟩, fun _ => rfl, ⟨rfl, rfl⟩, ⟨rfl, rfl⟩, rfl, rfl, rfl⟩

/-- A push writes the slot at sp and keeps every other (R29). -/
theorem push_stack_getElem (s : State) (ret : Addr) (j : Fin 16) :
    (s.push ret).stack[j] = if j = s.sp then ret else s.stack[j] := by
  split
  · next hj => subst hj; simp
  · next hj => exact push_stack_of_ne hj ret

/-- Settles O5: the two endings of CALL; below the cap sp does not wrap. -/
theorem callPushesOrOverflows : Obligations.CallPushesOrOverflows := by
  intro nnn s
  refine ⟨decodeOfEncode (.call nnn) rfl, ?_⟩
  rcases execCall_cases nnn s with ⟨hcap, e⟩ | ⟨hcap, e⟩
  · exact ⟨fun _ => e, fun hlt => absurd hcap (Nat.not_le.2 hlt)⟩
  · refine ⟨fun hfull => absurd hfull (Nat.ne_of_lt hcap), fun hlt => ?_⟩
    exact ⟨_, e, rfl, Fin.val_add_one_of_lt hlt, push_stack_getElem s (s.pc + 2), fun _ => rfl, rfl, ⟨rfl, rfl⟩,
      fun _ => rfl, ⟨rfl, rfl⟩, ⟨rfl, rfl⟩, rfl, rfl, rfl⟩

end Sys2Proof.Machine
end

section
/-!
PROOFS. Load, arithmetic, logic and shift: what they decode from, the value and the flag they write, and their frames
(O9 to O13).
-/
namespace Sys2Proof.Machine

/-! ### What writing a result keeps (R131) -/

theorem onlyRegsPc_result (s : State) (x : Reg) (b : Byte) : Claims.OnlyRegsPc s (s.result x b) :=
  ⟨rfl, ⟨rfl, rfl⟩, ⟨rfl, rfl⟩, fun _ => rfl, ⟨rfl, rfl⟩, ⟨rfl, rfl⟩, rfl, rfl, rfl⟩

theorem onlyRegsPc_resultFlag (s : State) (x : Reg) (b : Byte) (f : Bool) :
    Claims.OnlyRegsPc s (s.resultFlag x b f) :=
  ⟨rfl, ⟨rfl, rfl⟩, ⟨rfl, rfl⟩, fun _ => rfl, ⟨rfl, rfl⟩, ⟨rfl, rfl⟩, rfl, rfl, rfl⟩

/-- An instruction whose whole meaning is to write `b` to Vx keeps every other register, VF among them (D13). -/
theorem exec_result {i : Instr} {s : State} {x : Reg} {b : Byte} (hi : exec i s = .next (s.result x b)) :
    ∃ t, exec i s = .next t ∧ (∀ r, t.reg r = if r = x then b else s.reg r) ∧ t.pc = s.pc + 2 ∧
      Claims.OnlyRegsPc s t :=
  ⟨_, hi, State.reg_result s x b, rfl, onlyRegsPc_result s x b⟩

/-- The same, with Vx and the other registers apart. -/
theorem exec_result_dest {i : Instr} {s : State} {x : Reg} {b : Byte} (hi : exec i s = .next (s.result x b)) :
    ∃ t, exec i s = .next t ∧ t.reg x = b ∧ (∀ r, r ≠ x → t.reg r = s.reg r) ∧ t.pc = s.pc + 2 ∧
      Claims.OnlyRegsPc s t := by
  obtain ⟨t, h, hreg, hframe⟩ := exec_result hi
  exact ⟨t, h, by rw [hreg, if_pos rfl], fun r hr => by rw [hreg, if_neg hr], hframe⟩

/-- An instruction whose whole meaning is to write `b` to Vx and then `f` to VF: where Vx is VF the flag stands. -/
theorem exec_resultFlag {i : Instr} {s : State} {x : Reg} {b : Byte} {f : Bool}
    (hi : exec i s = .next (s.resultFlag x b f)) :
    ∃ t, exec i s = .next t ∧ (x ≠ 15 → t.reg x = b) ∧ t.reg 15 = flagByte f ∧
      (∀ r, r ≠ x → r ≠ 15 → t.reg r = s.reg r) ∧ t.pc = s.pc + 2 ∧ Claims.OnlyRegsPc s t :=
  ⟨_, hi, fun hx => by rw [State.reg_resultFlag, if_neg hx, if_pos rfl], State.reg_resultFlag s x b f 15,
    fun r hx hf => by rw [State.reg_resultFlag, if_neg hf, if_neg hx], rfl, onlyRegsPc_resultFlag s x b f⟩

/-! ### Loads and ADD Vx, kk (R132 to R134) -/

/-- Settles O9: each writes one result to Vx; the 8-bit sum is the sum modulo 256. -/
theorem loadsAndAddByte : Obligations.LoadsAndAddByte := by
  intro x y kk s
  refine ⟨⟨decodeOfEncode (.ldByte x kk) rfl, exec_result rfl⟩, ⟨decodeOfEncode (.addByte x kk) rfl, ?_⟩,
    decodeOfEncode (.ldReg x y) rfl, exec_result rfl⟩
  obtain ⟨t, h, hx, hframe⟩ := exec_result_dest (i := .addByte x kk) (s := s) rfl
  exact ⟨t, h, by rw [hx, BitVec.toNat_add], hframe⟩

/-! ### Logic (R135 to R137) -/

/-- A result of which every bit is stated is written to Vx. -/
theorem exec_result_bits {i : Instr} {s : State} {x : Reg} {b : Byte} {bit : Nat → Bool}
    (hi : exec i s = .next (s.result x b)) (hb : ∀ k, b.getLsbD k = bit k) :
    ∃ t, exec i s = .next t ∧ (∀ k, (t.reg x).getLsbD k = bit k) ∧ (∀ r, r ≠ x → t.reg r = s.reg r) ∧
      t.pc = s.pc + 2 ∧ Claims.OnlyRegsPc s t := by
  obtain ⟨t, h, hx, hframe⟩ := exec_result_dest hi
  exact ⟨t, h, by rwa [hx], hframe⟩

/-- Settles O10: each writes the bitwise result to Vx. -/
theorem logicBitByBit : Obligations.LogicBitByBit :=
  fun x y _ => ⟨⟨decodeOfEncode (.orReg x y) rfl, exec_result_bits rfl fun _ => BitVec.getLsbD_or⟩,
    ⟨decodeOfEncode (.andReg x y) rfl, exec_result_bits rfl fun _ => BitVec.getLsbD_and⟩,
    decodeOfEncode (.xorReg x y) rfl, exec_result_bits rfl fun _ => BitVec.getLsbD_xor⟩

/-! ### Carry and borrow (R130, R138, R139, R141) -/

theorem flagByte_decide (p : Prop) [Decidable p] : flagByte (decide p) = if p then 1 else 0 := by
  simp [flagByte]

theorem flagByte_carryOut (a b : Byte) : flagByte (carryOut a b) = if a.toNat + b.toNat > 255 then 1 else 0 :=
  flagByte_decide _

theorem flagByte_noBorrow (a b : Byte) : flagByte (noBorrow a b) = if a.toNat ≥ b.toNat then 1 else 0 :=
  flagByte_decide _

/-- Settles O11: the 8-bit sum, then the carry. -/
theorem addRegisterCarry : Obligations.AddRegisterCarry := by
  intro x y s
  obtain ⟨t, h, hx, hvf, hframe⟩ := exec_resultFlag (i := .addReg x y) (s := s) rfl
  exact ⟨decodeOfEncode (.addReg x y) rfl, t, h, fun hne => by rw [hx hne, BitVec.toNat_add],
    hvf.trans (flagByte_carryOut _ _), hframe⟩

/-- The sum with 256 keeps the subtraction of naturals from stopping at 0. -/
theorem toNat_sub_byte (a b : Byte) : (a - b).toNat = (256 + a.toNat - b.toNat) % 256 := by
  have := b.isLt
  rw [BitVec.toNat_sub]
  omega

/-- The two subtractions differ in the operands' order only. -/
theorem exec_subtract {i : Instr} {s : State} {x : Reg} {a b : Byte}
    (hi : exec i s = .next (s.resultFlag x (a - b) (noBorrow a b))) :
    ∃ t, exec i s = .next t ∧ (x ≠ 15 → (t.reg x).toNat = (256 + a.toNat - b.toNat) % 256) ∧
      t.reg 15 = (if a.toNat ≥ b.toNat then 1 else 0) ∧
      (∀ r, r ≠ x → r ≠ 15 → t.reg r = s.reg r) ∧ t.pc = s.pc + 2 ∧ Claims.OnlyRegsPc s t := by
  obtain ⟨t, h, hx, hvf, hframe⟩ := exec_resultFlag hi
  exact ⟨t, h, fun hne => by rw [hx hne, toNat_sub_byte], hvf.trans (flagByte_noBorrow a b), hframe⟩

/-- Settles O12: both are subtractions with "no borrow" in VF. -/
theorem subtractNoBorrow : Obligations.SubtractNoBorrow :=
  fun x y _ => ⟨⟨decodeOfEncode (.subReg x y) rfl, exec_subtract rfl⟩,
    decodeOfEncode (.subnReg x y) rfl, exec_subtract rfl⟩

/-! ### Shifts (R140, R142) -/

theorem toNat_flagByte (f : Bool) : (flagByte f).toNat = f.toNat := by
  cases f
  · rfl
  · rfl

theorem toNat_flagByte_shiftedOutRight (a : Byte) : (flagByte (shiftedOutRight a)).toNat = a.toNat % 2 := by
  rw [toNat_flagByte, shiftedOutRight, BitVec.getLsbD, Nat.toNat_testBit, Nat.pow_zero, Nat.div_one]

/-- Bit 7 is the highest of a byte, so the quotient by 128 has no other. -/
theorem toNat_flagByte_shiftedOutLeft (a : Byte) : (flagByte (shiftedOutLeft a)).toNat = a.toNat / 128 := by
  have := a.isLt
  rw [toNat_flagByte, shiftedOutLeft, BitVec.getLsbD, Nat.toNat_testBit]
  omega

/-- A shift writes a result with a known value and a flag with a known value. -/
theorem exec_shift {i : Instr} {s : State} {x : Reg} {b : Byte} {f : Bool} {m c : Nat}
    (hi : exec i s = .next (s.resultFlag x b f)) (hb : b.toNat = m) (hf : (flagByte f).toNat = c) :
    ∃ t, exec i s = .next t ∧ (x ≠ 15 → (t.reg x).toNat = m) ∧ (t.reg 15).toNat = c ∧
      (∀ r, r ≠ x → r ≠ 15 → t.reg r = s.reg r) ∧ t.pc = s.pc + 2 ∧ Claims.OnlyRegsPc s t := by
  obtain ⟨t, h, hx, hvf, hframe⟩ := exec_resultFlag hi
  exact ⟨t, h, fun hne => by rw [hx hne, hb], by rw [hvf, hf], hframe⟩

theorem toNat_ushiftRight_one (a : Byte) : (a >>> 1).toNat = a.toNat / 2 := by
  rw [BitVec.toNat_ushiftRight, Nat.shiftRight_eq_div_pow, Nat.pow_one]

theorem toNat_shiftLeft_one (a : Byte) : (a <<< 1).toNat = a.toNat * 2 % 256 := by
  rw [BitVec.toNat_shiftLeft, Nat.shiftLeft_eq, Nat.pow_one]

/-- Settles O13: Vx halved or doubled, and the bit moved out; y is not looked at (D14). -/
theorem shiftsByOne : Obligations.ShiftsByOne :=
  fun x y _ => ⟨⟨decodeOfEncode (.shr x y) rfl,
      exec_shift rfl (toNat_ushiftRight_one _) (toNat_flagByte_shiftedOutRight _)⟩,
    decodeOfEncode (.shl x y) rfl, exec_shift rfl (toNat_shiftLeft_one _) (toNat_flagByte_shiftedOutLeft _)⟩

end Sys2Proof.Machine
end

section
/-!
PROOFS. Index register and random: what they decode from, the value they write to I or Vx, and their frames (O14 to
O17).
-/
namespace Sys2Proof.Machine

variable {s : State}

/-! ### Writes of I (R150, R152, R153) -/

/-- An instruction whose whole meaning is to write a word of known value to I and advance keeps every register, VF
among them, and everything else. -/
theorem exec_setI {i : Instr} {w : Word} {m : Nat} (hi : exec i s = .next (s.setI w).advance) (hw : w.toNat = m) :
    ∃ t, exec i s = .next t ∧ t.i.toNat = m ∧ t.pc = s.pc + 2 ∧ Claims.SameRegs s t ∧ Claims.SameStack s t ∧
      Claims.SameTimers s t ∧ Claims.SameMem s t ∧ Claims.SameScreen s t ∧ Claims.SameLatches s t ∧
      Claims.SameOwn s t :=
  ⟨_, hi, hw, rfl, fun _ => rfl, ⟨rfl, rfl⟩, ⟨rfl, rfl⟩, fun _ => rfl, ⟨rfl, rfl⟩, ⟨rfl, rfl⟩, rfl, rfl, rfl⟩

/-- Settles O14: LD I writes the address, which zero extension keeps as a number. -/
theorem ldIZeroExtends : Obligations.LdIZeroExtends :=
  fun nnn _ => ⟨decodeOfEncode (.ldI nnn) rfl, exec_setI rfl (BitVec.toNat_setWidth_of_le (by decide))⟩

/-- Settles O16: ADD I writes the 16-bit sum to I, the sum modulo 65536: it is not masked to 12 bits (D15). -/
theorem addIWrapsAtSixteenBits : Obligations.AddIWrapsAtSixteenBits :=
  fun x _ => ⟨decodeOfEncode (.addI x) rfl,
    exec_setI rfl (by rw [BitVec.toNat_add, BitVec.toNat_setWidth, Nat.add_mod_mod])⟩

/-- The address of a glyph is below 80, so 16 bits hold it. -/
theorem toNat_glyphAddress (b : Byte) :
    (BitVec.ofNat 16 (Config.glyphBytes * (lowNibble b).val)).toNat = 5 * (b.toNat % 16) := by
  rw [BitVec.toNat_ofNat, lowNibble_val, Config.glyphBytes]
  omega

/-- Settles O17: LD F writes the address of the glyph of Vx's low nibble to I. -/
theorem ldFSelectsTheGlyph : Obligations.LdFSelectsTheGlyph :=
  fun x _ => ⟨decodeOfEncode (.ldF x) rfl, exec_setI rfl (toNat_glyphAddress _)⟩

/-! ### The free byte (R37, R151) -/

/-- The free byte is the host's where the host gave one. -/
theorem State.rnd_of_some {c : Byte} (h : s.rndIn = some c) : s.rnd = c := by
  rw [State.rnd, h]

/-- The free byte is the next value of `Config.rnd` where the host gave none. -/
theorem State.rnd_of_none (h : s.rndIn = none) : s.rnd = Config.rnd s.draws := by
  rw [State.rnd, h]

/-- Settles O15: RND writes the free byte ANDed with kk to Vx, and takes it. -/
theorem rndMasksTheFreeByte : Obligations.RndMasksTheFreeByte :=
  fun x kk s => ⟨decodeOfEncode (.rnd x kk) rfl, _, s.rnd, rfl, fun _ => State.rnd_of_some, State.rnd_of_none,
    State.reg_setReg s x (s.rnd &&& kk), rfl, rfl, rfl, rfl, ⟨rfl, rfl⟩, ⟨rfl, rfl⟩, fun _ => rfl, ⟨rfl, rfl⟩,
    ⟨rfl, rfl⟩, rfl⟩

end Sys2Proof.Machine
end

section
/-!
PROOFS. The laws of the draw (44_draw.md rule R164): VF is 1 where a pixel was turned Off, the same draw twice restores
the screen, and a draw stays at the sprite's place (O19, O20, O21).
-/
namespace Sys2Proof.Machine

variable {s t s' u : State} {x y : Reg} {n : Fin 16} {m : Nat}

theorem flagByte_eq_one (f : Bool) : flagByte f = 1 ↔ f = true := by
  cases f
  · decide
  · decide

/-- What a DRW that does not fault does to the screen and to VF, in the terms of the claims: it takes a screen of the
right shape to another, changes a pixel exactly where a 1 bit of the sprite lies on it, and VF says whether one of those
was On (R160 to R163). -/
structure Draws (s t : State) (x y : Reg) (m : Nat) : Prop where
  shape : t.fb.wf s.params = true
  flips : ∀ row col, t.fb.pixel row col = (!s.fb.pixel row col) ↔
    Claims.SpriteBitOn Config.drawXOverflow s x y m row col
  flag : t.reg 15 = 1 ↔
    ∃ row col, Claims.SpriteBitOn Config.drawXOverflow s x y m row col ∧ s.fb.pixel row col = true

/-- A DRW in range draws; memory need not be in canonical form. -/
theorem exec_drw_draws (hp : validParams s.params = true) (hf : s.fb.wf s.params = true)
    (hr : s.dataAddr + n.val ≤ s.params.memSize) (h : exec (.drw x y n) s = .next t) : Draws s t x y n.val := by
  obtain rfl := Host.Outcome.next.inj ((exec_inRange (exec_drw x y n s) hr).symm.trans h)
  obtain ⟨hwf, hpix, hcoll⟩ :=
    drawSprite_spec hp Config.drawXOverflow hf (s.reg x) (s.reg y) (s.bytes s.dataAddr n.val)
  have hmem := mem_spritePixels_iff_spriteBitOn hp Config.drawXOverflow x y n.val
  simp only [hmem] at hcoll
  refine ⟨hwf, fun row col => ?_, ?_⟩
  · rw [State.drawn_fb, hpix, ← hmem]
    split
    · next hon => exact iff_of_true rfl hon
    · next hoff => exact iff_of_false (Bool.eq_not.not.2 (not_not.2 rfl)) hoff
  · rw [State.reg_drawn, if_pos rfl, flagByte_eq_one, hcoll]

theorem Draws.spriteBitOn_of_ne (h : Draws s t x y m) {row col : Nat}
    (hne : t.fb.pixel row col ≠ s.fb.pixel row col) :
    Claims.SpriteBitOn Config.drawXOverflow s x y m row col :=
  (h.flips row col).1 (Bool.eq_not.2 hne)

theorem Draws.pixel_eq (h : Draws s t x y m) {row col : Nat}
    (hoff : ¬ Claims.SpriteBitOn Config.drawXOverflow s x y m row col) : t.fb.pixel row col = s.fb.pixel row col :=
  not_not.1 (mt h.spriteBitOn_of_ne hoff)

/-- Settles O19: the pixels turned Off are those under a 1 bit that were On. -/
theorem drwCollisionIsAPixelTurnedOff : Obligations.DrwCollisionIsAPixelTurnedOff := by
  rintro x y n s t ⟨hp, -, hf⟩ h hr
  have hd := exec_drw_draws hp hf hr h
  rw [hd.flag]
  constructor
  · rintro ⟨row, col, hon, hpix⟩
    have hoff := (hd.flips row col).2 hon
    obtain ⟨-, -, -, -, -, -, hrow, hcol, -⟩ := hon
    exact ⟨row, hrow, col, hcol, hpix, by rw [hoff, hpix, Bool.not_true]⟩
  · rintro ⟨row, -, col, -, hpix, hoff⟩
    exact ⟨row, col, (hd.flips row col).1 (by rw [hoff, hpix, Bool.not_true]), hpix⟩

/-- Where the bits of a sprite lie depends on the screen's size, the two coordinates, I and the sprite's bytes only. -/
theorem spriteBitOn_congr {mode : Config.XOverflow} {row col : Nat} (hparams : s'.params = s.params)
    (hx : s'.reg x = s.reg x) (hy : s'.reg y = s.reg y) (ha : s'.dataAddr = s.dataAddr)
    (hbytes : ∀ k < m, s'.byte (s.dataAddr + k) = s.byte (s.dataAddr + k)) :
    Claims.SpriteBitOn mode s' x y m row col ↔ Claims.SpriteBitOn mode s x y m row col := by
  unfold Claims.SpriteBitOn
  rw [hparams, hx, hy, ha]
  refine exists_congr fun r => exists_congr fun k => and_congr_right fun hr => ?_
  rw [hbytes r hr]

/-- A draw that changes the screen has a 1 bit on some pixel. -/
theorem Draws.exists_spriteBitOn (h : Draws s t x y m) (hf : s.fb.wf s.params = true) (hne : t.fb ≠ s.fb) :
    ∃ row col, Claims.SpriteBitOn Config.drawXOverflow s x y m row col := by
  by_contra hno
  refine hne (Frame.ext h.shape hf fun row _ col _ => ?_)
  by_contra hpix
  exact hno ⟨row, col, h.spriteBitOn_of_ne hpix⟩

/-- A second draw undoes the first where it starts from the screen the first left and its 1 bits lie on the same
pixels (R164 (a)). -/
theorem Draws.restores (h : Draws s t x y m) (h' : Draws s' u x y m) (hfb : s'.fb = t.fb)
    (hsame : ∀ row col, Claims.SpriteBitOn Config.drawXOverflow s' x y m row col ↔
      Claims.SpriteBitOn Config.drawXOverflow s x y m row col) (row col : Nat) :
    u.fb.pixel row col = s.fb.pixel row col := by
  by_cases hon : Claims.SpriteBitOn Config.drawXOverflow s x y m row col
  · rw [(h'.flips row col).2 ((hsame row col).2 hon), hfb, (h.flips row col).2 hon, Bool.not_not]
  · rw [h'.pixel_eq (mt (hsame row col).1 hon), hfb, h.pixel_eq hon]

/-- Where the draw met no On pixel, every pixel under a 1 bit is On after it. -/
theorem Draws.pixel_lit (h : Draws s t x y m) (hvf : t.reg 15 ≠ 1) {row col : Nat}
    (hon : Claims.SpriteBitOn Config.drawXOverflow s x y m row col) : t.fb.pixel row col = true := by
  have hwasOff : s.fb.pixel row col = false :=
    Bool.eq_false_of_not_eq_true fun hpix => hvf (h.flag.2 ⟨row, col, hon, hpix⟩)
  rw [(h.flips row col).2 hon, hwasOff, Bool.not_false]

/-- Settles O20: both draws flip the same pixels, and a pixel flipped twice is as before; a pixel the first draw lit is
On where the second has a 1 bit. -/
theorem drwTwiceRestoresTheScreen : Obligations.DrwTwiceRestoresTheScreen := by
  rintro x y n s t s' u ⟨hp, -, hf⟩ h hr hparams hx hy hi hbytes hfb h'
  have ha : s'.dataAddr = s.dataAddr := by rw [dataAddr_eq, dataAddr_eq, hi]
  have hsame (row col : Nat) := spriteBitOn_congr (mode := Config.drawXOverflow) (row := row) (col := col)
    hparams hx hy ha hbytes
  have hd := exec_drw_draws hp hf hr h
  have hd' : Draws s' u x y n.val :=
    exec_drw_draws (by rwa [hparams]) (by rw [hparams, hfb]; exact hd.shape) (by rwa [hparams, ha]) h'
  refine ⟨Frame.ext (hparams ▸ hd'.shape) hf fun row _ col _ => hd.restores hd' hfb hsame row col, fun hvf hne => ?_⟩
  obtain ⟨row, col, hon⟩ := hd.exists_spriteBitOn hf hne
  have hlit := hd.pixel_lit (by rw [hvf]; decide) hon
  exact hd'.flag.2 ⟨row, col, (hsame row col).2 hon, by rw [hfb, hlit]⟩

/-- The sprite's rows and columns: those its bits can lie in (R161). -/
theorem spriteBitOn_place {mode : Config.XOverflow} {row col : Nat} (hon : Claims.SpriteBitOn mode s x y m row col) :
    (s.reg y).toNat % s.params.height ≤ row ∧ row < (s.reg y).toNat % s.params.height + m ∧
    row < s.params.height ∧ col < s.params.width ∧
    (((s.reg x).toNat % s.params.width ≤ col ∧ col < (s.reg x).toNat % s.params.width + 8) ∨
      (mode = .wrap ∧ col + s.params.width < (s.reg x).toNat % s.params.width + 8)) := by
  obtain ⟨r, k, hr, hk, -, hrow, hlt, hcol, hplace⟩ := hon
  refine ⟨by omega, by omega, hlt, hcol, ?_⟩
  rcases hplace with e | ⟨hmode, e⟩
  · exact .inl (by omega)
  · exact .inr ⟨hmode, by omega⟩

/-- Settles O21: a changed pixel has a 1 bit of the sprite on it; a DRW that faults changes none. -/
theorem drwChangesOnlyTheSpritesPlace : Obligations.DrwChangesOnlyTheSpritesPlace := by
  rintro x y n s t row col ⟨hp, -, hf⟩ h hne
  by_cases hr : s.dataAddr + n.val ≤ s.params.memSize
  · exact spriteBitOn_place ((exec_drw_draws hp hf hr h).spriteBitOn_of_ne hne)
  · obtain rfl := Host.Outcome.next.inj ((exec_overrun (exec_drw x y n s) (Nat.lt_of_not_le hr)).symm.trans h)
    exact absurd rfl hne

end Sys2Proof.Machine
end

section
/-!
PROOFS. Which fault a step latches and which load is rejected (O34, O54), and the host's tick, key and snapshot events
(O55 to O58).
-/
namespace Sys2Proof.Machine

variable {s t : State}

/-! ### The one check of an instruction (R203 to R205) -/

/-- A range-checked instruction latches MemoryOverrun exactly where its range leaves memory. -/
theorem exec_range_fault {i : Instr} {n : Nat} {f : Nat → State} (hi : exec i s = withRange s n fun a => .next (f a))
    (h : exec i s = .next t) (hf : (f s.dataAddr).fault = none) :
    t.fault = if s.dataAddr + n > s.params.memSize then some (.memoryOverrun s.pc) else none := by
  split
  · next hout =>
    obtain rfl := Host.Outcome.next.inj ((exec_overrun hi hout).symm.trans h)
    rfl
  · next hin =>
    obtain rfl := Host.Outcome.next.inj ((exec_inRange hi (Nat.le_of_not_lt hin)).symm.trans h)
    exact hf

/-- RET latches StackUnderflow exactly where the stack is empty (R204). -/
theorem exec_ret_fault (hf : s.fault = none) (h : exec .ret s = .next t) :
    t.fault = if s.sp.val = 0 then some (.stackUnderflow s.pc) else none := by
  rcases execRet_cases s with ⟨hsp, e⟩ | ⟨hsp, e⟩
  · obtain rfl := Host.Outcome.next.inj (e.symm.trans h)
    rw [if_pos (Fin.val_eq_zero_iff.2 hsp)]
    rfl
  · obtain rfl := Host.Outcome.next.inj (e.symm.trans h)
    rw [if_neg (Fin.val_ne_zero_iff.2 hsp)]
    exact hf

/-- CALL latches StackOverflow exactly where fifteen return addresses are held (R203). -/
theorem exec_call_fault {nnn : Addr} (hf : s.fault = none) (h : exec (.call nnn) s = .next t) :
    t.fault = if s.sp.val = 15 then some (.stackOverflow s.pc) else none := by
  rcases execCall_cases nnn s with ⟨hcap, e⟩ | ⟨hcap, e⟩
  · obtain rfl := Host.Outcome.next.inj (e.symm.trans h)
    rw [if_pos (Nat.le_antisymm (Nat.le_of_lt_succ s.sp.isLt) hcap)]
    rfl
  · obtain rfl := Host.Outcome.next.inj (e.symm.trans h)
    have hne : s.sp.val ≠ 15 := Nat.ne_of_lt hcap
    rw [if_neg hne]
    exact hf

/-- Settles O34: the fetch, the decoder, then by the instruction: RET, CALL and the four range-checked ones have a check,
and no other writes the latch. -/
theorem faultConditions : Obligations.FaultConditions := by
  intro s t hf h
  refine ⟨fun hpc => ?_, fun hpc w hw => ?_⟩
  · obtain rfl := Host.Outcome.next.inj ((fetchPastTheTopLatches s hf hpc).symm.trans h)
    rfl
  cases hd : decodeWord w with
  | none =>
    obtain rfl := Host.Outcome.next.inj ((step_of_illegal hf hpc hw hd).symm.trans h)
    rfl
  | some i =>
    rw [step_of_decodes hf hpc hw hd] at h
    cases i with
    | ret => exact exec_ret_fault hf h
    | call nnn => exact exec_call_fault hf h
    | drw x y n => exact exec_range_fault (exec_drw x y n s) h hf
    | ldB x => exact exec_range_fault (exec_ldB x s) h hf
    | ldMemVx x => exact exec_range_fault (exec_ldMemVx x s) h hf
    | ldVxMem x => exact exec_range_fault (exec_ldVxMem x s) h hf
    | ldVxK x => rcases exec_ldVxK_next h with rfl | ⟨b, rfl⟩ <;> exact hf
    -- what is left has one ending
    | _ =>
      obtain rfl := Host.Outcome.next.inj h
      simpa using hf

/-! ### Loads (R201, R231) -/

/-- No record that a step can latch is ProgramTooLong (R201). -/
theorem step_fault_ne_programTooLong (hf : s.fault = none) (h : step s = .next t) (n : Nat) :
    t.fault ≠ some (.programTooLong n) := by
  obtain ⟨hfetch, hword⟩ := faultConditions s t hf h
  rcases Nat.lt_or_ge (s.pc.toNat + 1) s.params.memSize with hpc | hpc
  · have hfault := hword hpc _ (toNat_wordAt s s.pc.toNat)
    -- one goal for each row of O34's list of records
    split at hfault <;> simp [hfault]
  · simp [hfetch hpc]

/-- Settles O54: the length alone decides whether the load is taken. -/
theorem tooLongProgramsAreRejected : Obligations.TooLongProgramsAreRejected := by
  refine ⟨fun p s hp => ⟨rejected s p.length, ?_, rejected_fault s _⟩, fun p s hp => ⟨loaded s p, ?_⟩, rfl,
    fun s t n hf h => step_fault_ne_programTooLong hf h n⟩
  · rw [handle, resetLoad_of_gt hp, stepReply, rejected_fault]
  · rw [handle, resetLoad_of_le hp.le]
    rfl

/-! ### Ticks (R216) -/

theorem saturatingDecrement_eq_max (b : Byte) (n : Nat) :
    ((saturatingDecrement b n).toNat : Int) = max ((b.toNat : Int) - n) 0 := by
  rw [toNat_saturatingDecrement]
  omega

/-- Settles O55: the saturating decrement on both timers. -/
theorem tickSaturates : Obligations.TickSaturates :=
  fun n s => ⟨tick s n, rfl, saturatingDecrement_eq_max s.dt n, saturatingDecrement_eq_max s.st n, rfl⟩

@[simp] theorem saturatingDecrement_zero (b : Byte) : saturatingDecrement b 0 = b :=
  BitVec.eq_of_toNat_eq (toNat_saturatingDecrement b 0)

theorem saturatingDecrement_add (b : Byte) (m n : Nat) :
    saturatingDecrement (saturatingDecrement b m) n = saturatingDecrement b (m + n) := by
  apply BitVec.eq_of_toNat_eq
  simp only [toNat_saturatingDecrement, Nat.sub_sub]

@[simp] theorem tick_zero (s : State) : tick s 0 = s := by
  simp [tick]

theorem tick_add (s : State) (m n : Nat) : tick (tick s m) n = tick s (m + n) := by
  simp [tick, saturatingDecrement_add]

/-- A first event that answers, then the rest. -/
theorem handleAll_cons {e : HostEvent} {es : List HostEvent} {u : State} {r : Reply} {rs : List Reply}
    (he : handle e s = .next (u, r)) (hes : handleAll es u = .next (t, rs)) :
    handleAll (e :: es) s = .next (t, r :: rs) := by
  simp only [handleAll, he, hes]

theorem handleAll_replicate_tick_one (n : Nat) (s : State) :
    handleAll (List.replicate n (.tick 1)) s = .next (tick s n, List.replicate n .nothing) := by
  induction n generalizing s with
  | zero =>
    rw [tick_zero]
    rfl
  | succ n ih =>
    have hrest := ih (tick s 1)
    rw [tick_add, Nat.add_comm 1 n] at hrest
    exact handleAll_cons rfl hrest

/-- Settles O56, by induction on n: two ticks in a row add up. -/
theorem tickIsRepeatedTickOne : Obligations.TickIsRepeatedTickOne :=
  fun n s => ⟨tick s n, rfl, handleAll_replicate_tick_one n s⟩

/-! ### Keys and snapshots (R218, R220) -/

/-- Settles O57: an index up to 15 writes one slot, any other none. -/
theorem keyEventSetsOneLatch : Obligations.KeyEventSetsOneLatch := by
  intro k st s
  refine ⟨keyEvent s k st, rfl, ?_⟩
  rcases Nat.lt_or_ge k 16 with hk | hk
  · rw [keyEvent_of_lt hk]
    refine ⟨fun j => ?_, rfl⟩
    simp only [Fin.getElem_fin, Vector.getElem_set, eq_comm (a := k)]
    rfl
  · rw [keyEvent_of_ge hk]
    exact ⟨fun j => (if_neg (Nat.ne_of_lt (j.isLt.trans_le hk))).symm, rfl⟩

/-- Clearing a dirty bit that is clear changes nothing. -/
theorem takeSnapshot_of_not_dirty (hd : s.dirty = false) : takeSnapshot s = s := by
  rw [takeSnapshot, ← hd]

/-- Settles O58: the dirty bit decides the reply, and is clear after it. -/
theorem snapshotOncePerDirty : Obligations.SnapshotOncePerDirty := by
  refine fun s => ⟨fun hd => ⟨takeSnapshot s, ?_, rfl⟩, fun hd => ?_⟩
  · simp [handle, snapshotReply, hd]
  · simp [handle, snapshotReply, hd, takeSnapshot_of_not_dirty hd]

end Sys2Proof.Machine
end

section
/-!
PROOFS. A load that fits places its program (O53), and a program that has finished stays where it is (O42).
-/
namespace Sys2Proof.Machine

variable {s : State} {p : List Byte}

/-! ### A load that fits (R230) -/

theorem handle_resetLoad_of_le (hp : p.length ≤ progMax s.params) :
    handle (.resetLoad p) s = .next (loaded s p, .result none) := by
  rw [handle, resetLoad_of_le hp]
  rfl

/-- A program that fits stands from `PROG_BASE` on, its first byte first. -/
theorem byte_loaded_inside (hp : p.length ≤ progMax s.params) {j : Nat} (hj : j < p.length) :
    (loaded s p).byte (Config.progBase + j) = p[j] := by
  -- a program with a byte in it fits only where PROG_BASE is below MEM_SIZE, so the difference is not cut off at 0
  have hfits : Config.progBase + p.length ≤ s.params.memSize := by
    unfold progMax at hp
    omega
  exact Memory.read_writeBytes_inside (m := []) rfl hfits hj

/-- A load leaves every byte outside its program at its reset contents (R51). -/
theorem byte_loaded_outside (s : State) {a : Nat} (ha : a < Config.progBase ∨ Config.progBase + p.length ≤ a) :
    (loaded s p).byte a = (State.resetOf s.params).byte a :=
  Memory.read_writeBytes_of_outside [] _ _ ha

/-- Settles O53: the load writes the program's bytes into the reset contents, and no others. -/
theorem loadPlacesTheProgram : Obligations.LoadPlacesTheProgram :=
  fun p s hp => ⟨loaded s p, handle_resetLoad_of_le hp, fun _ hj => byte_loaded_inside hp hj,
    fun _ ha => byte_loaded_outside s ha, rfl⟩

/-! ### The end of a run (R245) -/

/-- Where pc stands already, setting it changes nothing. -/
@[simp] theorem State.setPc_pc_self (s : State) : s.setPc s.pc = s := rfl

/-- Settles O42: the word at pc is the jump to pc, and the jump sets pc to where it stands. -/
theorem finishedIsAFixedPoint : Obligations.FinishedIsAFixedPoint := by
  rintro s ⟨hf, hfetch, hword⟩
  have hdecode : decodeWord (s.wordAt s.pc.toNat) = some (.jp s.pc) := by
    rw [hword]
    exact (jpSetsPc s.pc s).1
  calc step s = exec (.jp s.pc) s := by rw [step, nextPhase_executes hf hfetch hdecode]
    _ = .next (s.setPc s.pc) := rfl
    _ = .next s := by rw [State.setPc_pc_self]

end Sys2Proof.Machine
end

section
/-!
PROOFS. Keypad and timer instructions: what they decode from, what they write, and their frames (O22 to O24).
-/
namespace Sys2Proof.Machine

variable {s : State}

/-! ### The least pressed key (R172) -/

/-- Where no key is pressed, `leastKey` finds none. -/
theorem leastKey_of_none_pressed (h : ∀ k : Fin 16, s.key[k] = false) : s.leastKey = none := by
  cases hleast : s.leastKey with
  | none => rfl
  | some k => exact absurd (leastKey_eq_some hleast).1 (Bool.eq_false_iff.1 (h k))

/-- A pressed key with none pressed below it is the one `leastKey` finds: there is only one such key. -/
theorem leastKey_of_least {k : Fin 16} (hk : s.key[k] = true) (hbelow : ∀ j : Fin 16, j < k → s.key[j] = false) :
    s.leastKey = some k := by
  cases hleast : s.leastKey with
  | none => exact absurd hk (Bool.eq_false_iff.1 (leastKey_eq_none hleast k))
  | some j =>
    obtain ⟨hj, hbelow'⟩ := leastKey_eq_some hleast
    have hkj : k ≤ j := not_lt.1 fun hlt => Bool.eq_false_iff.1 (hbelow j hlt) hj
    have hjk : j ≤ k := not_lt.1 fun hlt => Bool.eq_false_iff.1 (hbelow' k hlt) hk
    rw [le_antisymm hjk hkj]

/-- A key's number fits in a byte. -/
theorem toNat_ofNat_key (k : Fin 16) : (BitVec.ofNat 8 k.val).toNat = k.val :=
  Nat.mod_eq_of_lt (k.isLt.trans (by decide))

/-- Settles O23: where no key is pressed LD Vx, K answers the state itself; else it writes the number of the key that
`leastKey` finds as a result to Vx. -/
theorem ldKeyTakesTheLeastOrHolds : Obligations.LdKeyTakesTheLeastOrHolds := by
  intro x s
  refine ⟨decodeOfEncode (.ldVxK x) rfl, fun hnone => execLdVxK_of_none (leastKey_of_none_pressed hnone) x,
    fun k hk hbelow => ?_⟩
  have hexec : exec (.ldVxK x) s = .next (s.result x (BitVec.ofNat 8 k.val)) :=
    execLdVxK_of_some (leastKey_of_least hk hbelow) x
  obtain ⟨t, h, hx, hframe⟩ := exec_result_dest hexec
  exact ⟨t, h, by rw [hx, toNat_ofNat_key], hframe⟩

/-! ### Key skips (R170, R171) -/

/-- Settles O22: both are conditional skips on the latch of the key that the low nibble names, SKNP on its negation. -/
theorem keySkips : Obligations.KeySkips := by
  intro x s k hk
  obtain rfl : lowNibble (s.reg x) = k := Fin.ext ((lowNibble_val _).trans hk.symm)
  exact ⟨⟨decodeOfEncode (.skp x) rfl, exec_skipIf rfl id id⟩,
    decodeOfEncode (.sknp x) rfl, exec_skipIf rfl (congrArg (! ·)) (congrArg (! ·))⟩

/-! ### Timers (R180 to R182) -/

/-- Settles O24: LD Vx, DT writes a result to Vx; the two others write one timer and advance. -/
theorem timerInstructions : Obligations.TimerInstructions :=
  fun x _ => ⟨⟨decodeOfEncode (.ldVxDt x) rfl, exec_result rfl⟩,
    ⟨decodeOfEncode (.ldDtVx x) rfl, _, rfl, rfl, rfl, rfl, fun _ => rfl, rfl, ⟨rfl, rfl⟩, fun _ => rfl, ⟨rfl, rfl⟩,
      ⟨rfl, rfl⟩, rfl, rfl, rfl⟩,
    decodeOfEncode (.ldStVx x) rfl, _, rfl, rfl, rfl, rfl, fun _ => rfl, rfl, ⟨rfl, rfl⟩, fun _ => rfl, ⟨rfl, rfl⟩,
      ⟨rfl, rfl⟩, rfl, rfl, rfl⟩

end Sys2Proof.Machine
end
